-- ==== Sys2Proof/Word.lean ====
section
/-! DEFINITION. The bit-vector types of CRC16N and the two width changes of its pseudocode (00_scope.md R6, R7). -/

namespace Sys2Proof

/-- The value of `crc`, of a ROM entry and of `cmd_data`: 16 bits, unsigned (R5 `CRC_WIDTH`, `ROM_WIDTH`; R56). -/
abbrev Word := BitVec 16

/-- One message byte (R40). -/
abbrev Byte := BitVec 8

/-- Half a byte, and also a ROM index (R10, R5 `ROM_INDEX_WIDTH`). -/
abbrev Nibble := BitVec 4

/-- The `op` field of a command (R38). -/
abbrev OpField := BitVec 2

/-- The 18-bit command word `cmd[17:0]` (R37, R5 `CMD_WIDTH`). -/
abbrev Command := BitVec 18

/-- `trunc16(v)` of R7, for a `v` of unbounded width. -/
def trunc16 (v : Nat) : Word := BitVec.ofNat 16 v

/-- `zext16(v)` of R7: zero extension to 16 bits. -/
def zext16 {w : Nat} (v : BitVec w) : Word := v.setWidth 16

end Sys2Proof
end

