-- ==== Sys2Proof/Machine/Operands.lean ====
section
/-! DEFINITION. Operand assembly (30_encoding.md R37, R38, R40 to R42): the fields of a command word and the operand
each command takes from its data field. CRC16N has no addressing mode (R65), so these are all the operand forms. -/

namespace Sys2Proof.Machine

/-- `cmd[17:16]` (R38). -/
abbrev cmdOpOf (c : Command) : OpField := c.extractLsb' 16 2

/-- `cmd[15:0]` (R38). -/
abbrev cmdDataOf (c : Command) : Word := c.extractLsb' 0 16

/-- The command word {op, data} (R37). -/
abbrev mkCommand (op : OpField) (data : Word) : Command := op ++ data

/-- BYTE operand `b = data[7:0]` (R40). -/
abbrev byteOperand (data : Word) : Byte := data.extractLsb' 0 8

/-- NIB operand `n = data[3:0]` (R41). -/
abbrev nibOperand (data : Word) : Nibble := data.extractLsb' 0 4

/-- LOAD operand `v = data[15:0]` (R42). -/
abbrev loadOperand (data : Word) : Word := data

/-- `b[7:4]`, processed first (R10, R28, R40). -/
abbrev highNibble (b : Byte) : Nibble := b.extractLsb' 4 4

/-- `b[3:0]`, processed second (R10, R28, R40). -/
abbrev lowNibble (b : Byte) : Nibble := b.extractLsb' 0 4

/-- The byte {hi, lo}. -/
abbrev byteOfNibbles (hi lo : Nibble) : Byte := hi ++ lo

/-- `r[15:12]`, the only bits of the register that enter the ROM index (R49). -/
abbrev topNibble (r : Word) : Nibble := r.extractLsb' 12 4

/-- `r[15:8]` of a 16-bit value. -/
abbrev highByte (r : Word) : Byte := r.extractLsb' 8 8

/-- `r[7:0]` of a 16-bit value. -/
abbrev lowByte (r : Word) : Byte := r.extractLsb' 0 8

end Sys2Proof.Machine
end

