-- ==== Sys2Proof/Config.lean ====
section
/-! DEFINITION. The parameters of CRC16N (00_scope.md R1, R5). Every one is fixed, except the OPEN `CRC_BYTE_ORDER`,
which the model takes as an argument (`ByteOrder`) and never as a constant. -/

namespace Sys2Proof.Config

/-- `CRC_POLY`: x^16 + x^12 + x^5 + 1, the x^16 term implicit (R5). -/
def crcPoly : Word := 0x1021#16

/-- `CRC_INIT`, the value a fresh checksum starts from (R5). -/
def crcInit : Word := 0x1D0F#16

/-- `CRC_RESET_VALUE` (R5, R13). -/
def crcResetValue : Word := 0x1D0F#16

/-- `CRC_REFIN` (R5): message bytes are not reflected. -/
def crcRefIn : Bool := false

/-- `CRC_REFOUT` (R5): the result is not reflected. -/
def crcRefOut : Bool := false

/-- `CRC_XOROUT` (R5). -/
def crcXorOut : Word := 0x0000#16

/-- `ROM_ENTRIES` (R5, R15). -/
def romEntries : Nat := 16

/-- `NIBBLES_PER_BYTE` (R5, R31): how many ROM reads a byte costs. -/
def nibblesPerByte : Nat := 2

/-- `CMD_WIDTH` (R5, R45): the length in bits of every command. -/
def cmdWidth : Nat := 18

/-- `CMD_LATENCY` (R5, R87): edges from acceptance to `crc_out`. -/
def cmdLatency : Nat := 1

/-- The values that the OPEN host parameter `CRC_BYTE_ORDER` may take (R5, R29; 92 D26). -/
inductive ByteOrder where
  | highFirst
  | lowFirst
  deriving DecidableEq, Repr

end Sys2Proof.Config
end

