-- ==== Sys2Proof/Syntax.lean ====
section
/-! DEFINITION. The commands of CRC16N as data (30_encoding.md R39 to R43) and the lines of its assembly language
(R47, R48). -/

namespace Sys2Proof

/-- One command of the opcode map (R39), with the operand bits it uses. The data bits a command ignores (R44) are no
part of the command, so every term of this type is a legal command. -/
inductive Instr where
  /-- BYTE: fold one message byte (R40, R53). -/
  | byte (b : Byte)
  /-- NIB: fold one nibble (R41, R52). -/
  | nib (n : Nibble)
  /-- LOAD: write a register value (R42, R51). -/
  | load (v : Word)
  /-- INIT: write the fixed initial value (R43, R50). -/
  | init
  deriving DecidableEq, Repr

/-- The four names of the opcode map (R39). -/
inductive Mnemonic where
  | byte
  | nib
  | load
  | init
  deriving DecidableEq, Repr

/-- The mnemonic of a command. -/
def Instr.mnemonic : Instr → Mnemonic
  | .byte _ => .byte
  | .nib _ => .nib
  | .load _ => .load
  | .init => .init

/-- A row of the opcode map's match and mask pairs over `cmd[17:0]` (R39). -/
structure OpcodeRow where
  mnemonic : Mnemonic
  pattern : Command
  mask : Command
  deriving DecidableEq, Repr

/-- A plain line of the assembly language (R47). An immediate is the number written, before the check that it fits. -/
inductive CoreLine where
  | init
  | load (imm : Nat)
  | nib (imm : Nat)
  | byte (imm : Nat)
  /-- `cmd_valid` = 0 for one edge. -/
  | idle
  /-- `rst` = 1 for one edge. -/
  | reset
  deriving DecidableEq, Repr

/-- A line of the assembly language: a plain one (R47) or a pseudo-instruction (R48). -/
inductive AsmLine where
  | core (l : CoreLine)
  | bytes (bs : List Nat)
  | str (text : List Char)
  | update (r : Nat) (bs : List Nat)
  | crc (bs : List Nat)
  | byten (b : Nat)
  deriving DecidableEq, Repr

end Sys2Proof
end

