-- ==== Sys2Proof/WellFormed.lean ====
section
/-! DEFINITION. What is checked before encoding: an immediate of an assembly line "must fit its field" (30_encoding.md
R47), and a `STR` line holds ASCII text (R48). An `Instr` carries its operands at their exact widths, so every `Instr`
is well formed, as R44 says of command words. -/

namespace Sys2Proof

/-- `imm` fits a field of `w` bits. -/
def fitsField (w imm : Nat) : Bool := decide (imm < 2 ^ w)

/-- The immediate of a plain line fits its field (R47). -/
def CoreLine.wellFormed : CoreLine → Bool
  | .init => true
  | .load imm => fitsField 16 imm
  | .nib imm => fitsField 4 imm
  | .byte imm => fitsField 8 imm
  | .idle => true
  | .reset => true

/-- A character that has an ASCII code (R48 `STR`). -/
def isAscii (c : Char) : Bool := decide (c.toNat < 128)

/-- Every operand of a line fits its field (R47, R48). -/
def AsmLine.wellFormed : AsmLine → Bool
  | .core l => l.wellFormed
  | .bytes bs => bs.all (fitsField 8)
  | .str text => text.all isAscii
  | .update r bs => fitsField 16 r && bs.all (fitsField 8)
  | .crc bs => bs.all (fitsField 8)
  | .byten b => fitsField 8 b

end Sys2Proof
end

