-- ==== Sys2Proof/Decode.lean ====
section
/-! DEFINITION. Decoding and encoding of command words (30_encoding.md R37 to R45, opcode_table.json). Decoding is
total on 18-bit words (R44). That a number which is no 18-bit word is rejected, and under which name, is the model's
choice (log entry 4). -/

namespace Sys2Proof

open Sys2Proof.Machine

/-- The command that the fields `op` and `data` stand for (R39). The decoder reads `op` alone. -/
def decodeFields (op : OpField) (data : Word) : Instr :=
  if op = 0b00#2 then .byte (byteOperand data)
  else if op = 0b01#2 then .nib (nibOperand data)
  else if op = 0b10#2 then .load (loadOperand data)
  else .init

/-- The command that a command word stands for (R39, R44). -/
def decodeCommand (c : Command) : Instr := decodeFields (cmdOpOf c) (cmdDataOf c)

/-- Why a number is not decoded. -/
inductive DecodeError where
  /-- The number is 2^18 or more, so it is no 18-bit word (R45). The rejection is the model's choice (log entry 4).
  Raised by `decodeWord`; safe. -/
  | notACommandWord
  deriving DecidableEq, Repr

/-- The command word with the value `n`, when 18 bits hold it (R37, R45). -/
def commandOfNat (n : Nat) : Option Command :=
  if n < 2 ^ 18 then some (BitVec.ofNat 18 n) else none

/-- Decode a number written in the spec's hex form `(op << 16) | data` (R37). The rejection of a number that 18 bits do
not hold is the model's choice (log entry 4). -/
def decodeWord (n : Nat) : Except DecodeError Instr :=
  match commandOfNat n with
  | some c => .ok (decodeCommand c)
  | none => .error .notACommandWord

/-- The value of `op` that selects a command (R39). -/
def opcodeOf : Mnemonic → OpField
  | .byte => 0b00#2
  | .nib => 0b01#2
  | .load => 0b10#2
  | .init => 0b11#2

/-- The data field an assembler emits for a command: the operand, and zero in the ignored bits (R44, R47). -/
def dataOf : Instr → Word
  | .byte b => zext16 b
  | .nib n => zext16 n
  | .load v => v
  | .init => 0x0000#16

/-- The canonical word of a command (R47; "Word = ..." of R50 to R53). -/
def encode (i : Instr) : Command := mkCommand (opcodeOf i.mnemonic) (dataOf i)

/-- The match and mask pairs over `cmd[17:0]` (R39, opcode_table.json). -/
def opcodeRows : List OpcodeRow :=
  [ ⟨.byte, 0x00000#18, 0x30000#18⟩,
    ⟨.nib, 0x10000#18, 0x30000#18⟩,
    ⟨.load, 0x20000#18, 0x30000#18⟩,
    ⟨.init, 0x30000#18, 0x30000#18⟩ ]

/-- A command word matches a row of the opcode map. -/
def OpcodeRow.matchesWord (row : OpcodeRow) (c : Command) : Bool := c &&& row.mask == row.pattern

/-- The bits of a command word that its decoding uses: `op`, and the operand bits of R40 to R43. -/
def usedMask (op : OpField) : Command :=
  if op = 0b00#2 then 0x300FF#18
  else if op = 0b01#2 then 0x3000F#18
  else if op = 0b10#2 then 0x3FFFF#18
  else 0x30000#18

/-- A command word with its ignored data bits cleared (R44). -/
def canonicalWord (c : Command) : Command := c &&& usedMask (cmdOpOf c)

/-- The host's name for the decoder: bit 0 of `w` is bit 0 of `cmd[17:0]`, and bits from `nbits` up are zero. -/
def decodeTableWord (nbits w : Nat) : Option Instr := (commandOfNat (w % 2 ^ nbits)).map decodeCommand

end Sys2Proof
end

