-- ==== Sys2Proof/Machine/Rom.lean ====
section
/-! DEFINITION. The table ROM: its contents and how they are generated (10_state.md R15 to R19). -/

namespace Sys2Proof.Machine

/-- The contents of `ROM` (R17), fixed from power-up for the life of the device (R19). -/
def romTable : Vector Word 16 :=
  #v[0x0000#16, 0x1021#16, 0x2042#16, 0x3063#16, 0x4084#16, 0x50A5#16, 0x60C6#16, 0x70E7#16,
     0x8108#16, 0x9129#16, 0xA14A#16, 0xB16B#16, 0xC18C#16, 0xD1AD#16, 0xE1CE#16, 0xF1EF#16]

/-- `RomRead(i)` (R8, R16): every 4-bit index is in range. -/
def romRead (rom : Vector Word 16) (i : Nibble) : Word := rom[i.toNat]'(i.isLt)

/-- One MSB-first bit step of the polynomial (R18, R63). -/
def bitStep (c : Word) : Word :=
  if c.getLsbD 15 then (c <<< 1) ^^^ Config.crcPoly else c <<< 1

/-- `bitStep` repeated. -/
def bitSteps : Nat → Word → Word
  | 0, c => c
  | k + 1, c => bitSteps k (bitStep c)

/-- The generator of a ROM entry (R18). -/
def gen (i : Nibble) : Word := bitSteps 4 (zext16 i <<< 12)

end Sys2Proof.Machine
end

