-- ==== Sys2Proof/Machine/State.lean ====
section
/-! DEFINITION. The state of CRC16N as plain data (10_state.md R11 to R24), the inputs its host can give it, the faults
and refusals of a step, and the states right after reset and after power-up (70_reset_and_hazards.md R80, R82). -/

namespace Sys2Proof.Machine

/-- The 16-bit register `crc` (R12) with the spec's own "unwritten" mark (R14, R82): from power-up until a reset, an
INIT or a LOAD it holds no defined value. After reset it holds 0x1D0F (R13). -/
inductive CrcReg where
  /-- "`crc` holds no defined value" (R14). -/
  | unwritten
  /-- The register holds `v`; every value is legal (R12). -/
  | holds (v : Word)
  deriving DecidableEq, Repr

/-- The levels on the input ports at one rising edge of `clk` (R20), all of them valid (R84). -/
structure Ports where
  rst : Bool
  cmdValid : Bool
  cmdOp : OpField
  cmdData : Word
  deriving DecidableEq, Repr

/-- What the outside world does to CRC16N, one event at a time. -/
inductive HostInput where
  /-- A rising edge of `clk` at which the ports carry valid levels (R20, R86). -/
  | edge (p : Ports)
  /-- A rising edge at which the host breaks its input duty (R84). The invalid levels are not represented (92 D28). -/
  | badEdge
  /-- The host reads `crc_out` between two edges (R14, R21, R32, R87). -/
  | readOut
  /-- Supply power is lost and restored (R79). -/
  | powerCycle
  deriving DecidableEq, Repr

/-- The state: `crc` and `ROM`, which are all the architectural state (R11), and the model's own list of what the host
does next. The list is the outside world's, not a queue of the hardware (R24). -/
structure State where
  /-- The CRC register (R12 to R14). -/
  crc : CrcReg
  /-- The table ROM (R15 to R19). -/
  rom : Vector Word 16
  /-- The host's next inputs, the earliest first (notes/assumptions/3.md). -/
  inputs : List HostInput
  deriving DecidableEq, Repr

/-- Why the model stops. CRC16N itself raises no exception (R67). -/
inductive Fault where
  /-- A NIB or BYTE command used `crc` while it was unwritten (R14, R52, R53, R85). Raised by `foldCrc`; safe. -/
  | crcUnwritten
  /-- The host read `crc_out` while `crc` was unwritten (R14, 93 U1). Raised by `crcOut`; safe. -/
  | crcOutUndefined
  deriving DecidableEq, Repr

/-- Where the model has no meaning. -/
inductive Refusal where
  /-- An instruction whose meaning is not written yet; no arm of `exec` raises it. Safe. -/
  | notModelled (mnemonic : String)
  /-- The host broke its duty to present valid inputs (R84, 93 U2, 92 D28). Raised by `onInput`; safe. -/
  | inputDutyBroken
  deriving DecidableEq, Repr

/-- The machine right after a reset edge (R80, R82), with no input of the host listed. -/
def State.reset : State := ⟨.holds Config.crcResetValue, romTable, []⟩

/-- The machine after power-up, before any write of `crc` (R14, R19, R82). -/
def State.powerUp : State := ⟨.unwritten, romTable, []⟩

end Sys2Proof.Machine
end

