-- ==== Sys2Proof/Machine/Ops.lean ====
section
/-! DEFINITION. The shared operations: the nibble step, the byte step and the update of the source (40_crc_ops.md R49,
R53, R57), reads and writes of `crc` (10_state.md R12, R14, R21), and what an edge without a command, a reset, a read
of `crc_out` and a loss of power do. CRC16N takes no exception and returns from none (60_exceptions.md R67, R70), so
no operation does either. -/

namespace Sys2Proof.Machine

/-- The ROM index of a nibble step, `(r[15:12] XOR n) & 0xF` (R49). -/
def nibIndex (r : Word) (n : Nibble) : Nibble := (topNibble r ^^^ n) &&& 0xF#4

/-- `NibStep(r, n)` (R49). -/
def nibStep (rom : Vector Word 16) (r : Word) (n : Nibble) : Word :=
  romRead rom (nibIndex r n) ^^^ (r <<< 4)

/-- `ByteStep(r, b)`: two nibble steps, high nibble first (R28, R53, R57). -/
def byteStep (rom : Vector Word 16) (r : Word) (b : Byte) : Word :=
  nibStep rom (nibStep rom r (highNibble b)) (lowNibble b)

/-- `Update(r, data)`, the source's `update(register, data)` (R57). -/
def update (rom : Vector Word 16) (r : Word) : List Byte → Word
  | [] => r
  | b :: rest => update rom (byteStep rom r b) rest

/-- `crc <- v` (R8). -/
def State.writeCrc (s : State) (v : Word) : State := { s with crc := .holds v }

/-- A command that writes `crc` without reading it (INIT, LOAD): valid while `crc` is unwritten too (R50, R51). -/
def seedCrc (v : Word) (s : State) : Host.Outcome State Fault Refusal := .next (s.writeCrc v)

/-- A command that reads `crc` as it was before its edge and writes `f` of it (NIB, BYTE; R55). With `crc` unwritten
the model faults (R14, R85). -/
def foldCrc (f : Word → Word) (s : State) : Host.Outcome State Fault Refusal :=
  match s.crc with
  | .holds v => .next (s.writeCrc (f v))
  | .unwritten => .fault .crcUnwritten

/-- The value on `crc_out` (R21): `crc`, with no final XOR and no reflection. While `crc` is unwritten a read of it
faults in the model (R14). -/
def crcOut (s : State) : Except Fault Word :=
  match s.crc with
  | .holds v => .ok v
  | .unwritten => .error .crcOutUndefined

/-- A reset edge (R80): the whole reset state is `crc`. -/
def resetEdge (s : State) : State := s.writeCrc Config.crcResetValue

/-- An idle edge (R54): an unwritten `crc` stays unwritten. -/
def idleEdge (s : State) : State := s

/-- The host's read of `crc_out` as an event of a run: no side effect (R32), a fault while the value is undefined
(R14). -/
def readOut (s : State) : Host.Outcome State Fault Refusal :=
  match crcOut s with
  | .ok _ => .next s
  | .error r => .fault r

/-- Loss and return of supply power (R79, 93 U5): R14 applies again, and the ROM keeps its contents (R19). -/
def powerCycle (s : State) : State := { s with crc := .unwritten }

/-- The ROM indices that a command reads when `crc` holds `r`, in order (R16, R25, R31). -/
def romIndices (rom : Vector Word 16) (r : Word) : Instr → List Nibble
  | .byte b => [nibIndex r (highNibble b), nibIndex (nibStep rom r (highNibble b)) (lowNibble b)]
  | .nib n => [nibIndex r n]
  | .load _ => []
  | .init => []

end Sys2Proof.Machine
end

