-- ==== Sys2Proof/Machine/Crc.lean ====
section
/-! DEFINITION. The meaning of each CRC command (40_crc_ops.md R50 to R53). -/

namespace Sys2Proof.Machine

/-- INIT: `crc' <- 0x1D0F` (R50). -/
def execInit (s : State) : Host.Outcome State Fault Refusal := seedCrc Config.crcInit s

/-- LOAD: `crc' <- v` (R51). -/
def execLoad (v : Word) (s : State) : Host.Outcome State Fault Refusal := seedCrc v s

/-- NIB: `crc' <- NibStep(crc, n)` (R52). -/
def execNib (n : Nibble) (s : State) : Host.Outcome State Fault Refusal :=
  foldCrc (fun r => nibStep s.rom r n) s

/-- BYTE: `crc' <- NibStep(NibStep(crc, b[7:4]), b[3:0])` (R53). -/
def execByte (b : Byte) (s : State) : Host.Outcome State Fault Refusal :=
  foldCrc (fun r => byteStep s.rom r b) s

end Sys2Proof.Machine
end

