-- ==== Sys2Proof/Machine/Dispatch.lean ====
section
/-! DEFINITION. One arm per command: the meaning it has. -/

namespace Sys2Proof.Machine

def exec (i : Instr) (s : State) : Host.Outcome State Fault Refusal :=
  match i with
  | .byte b => Sys2Proof.Machine.execByte b s
  | .nib n => Sys2Proof.Machine.execNib n s
  | .load v => Sys2Proof.Machine.execLoad v s
  | .init => Sys2Proof.Machine.execInit s

end Sys2Proof.Machine
end

