-- ==== Sys2Proof/Machine/Edge.lean ====
section
/-! DEFINITION. What one rising edge of `clk`, and every other input of the host, does (70_reset_and_hazards.md R86;
60_exceptions.md R71; R79, R84). -/

namespace Sys2Proof.Machine

/-- The next-state function of one rising edge (R86): reset first (R71), then idle (R54), then the command. -/
def onEdge (p : Ports) (s : State) : Host.Outcome State Fault Refusal :=
  if p.rst then .next (resetEdge s)
  else if p.cmdValid then exec (decodeFields p.cmdOp p.cmdData) s
  else .next (idleEdge s)

/-- What one input of the host does to the machine. -/
def onInput (e : HostInput) (s : State) : Host.Outcome State Fault Refusal :=
  match e with
  | .edge p => onEdge p s
  | .badEdge => .refused .inputDutyBroken
  | .readOut => readOut s
  | .powerCycle => .next (powerCycle s)

/-- The ports at an edge that presents the command word `c` (R37). -/
def commandPorts (c : Command) : Ports := ⟨false, true, cmdOpOf c, cmdDataOf c⟩

/-- The edge that presents the canonical word of a command (R37, R47). -/
def commandEdge (i : Instr) : HostInput := .edge (commandPorts (encode i))

/-- The host input that stands for the number `n`: an edge with that command word, or, where no 18-bit port can carry
`n`, an edge that breaks R84. -/
def inputOfNat (n : Nat) : HostInput :=
  match commandOfNat n with
  | some c => .edge (commandPorts c)
  | none => .badEdge

end Sys2Proof.Machine
end

