-- ==== Sys2Proof/Machine/Step.lean ====
section
/-! DEFINITION. One step of the machine: the host's next input. -/

namespace Sys2Proof.Machine

/-- One step takes the host's next input (R86, R34). With no input left no edge comes, and `crc` keeps its value
(R79). -/
def step (s : State) : Host.Outcome State Fault Refusal :=
  match s.inputs with
  | [] => .next s
  | e :: rest => onInput e { s with inputs := rest }

/-- `s` with the command word `w` presented at the very next edge. -/
def State.withFetchWord (s : State) (nbits w : Nat) : State :=
  { s with inputs := inputOfNat (w % 2 ^ nbits) :: s.inputs }

end Sys2Proof.Machine
end

