-- ==== Sys2Proof/Machine/Asm.lean ====
section
/-! DEFINITION. The assembler: reading a line of text, expanding pseudo-instructions and emitting the edges of a
program (30_encoding.md R47, R48; 92 D20). What the spec leaves open of the text form is in notes/assumptions/6.md. -/

namespace Sys2Proof.Machine

/-- Why a line is not assembled. -/
inductive AsmError where
  /-- The line begins with no mnemonic of R47 or R48. Raised by `parseBody`; safe. -/
  | unknownMnemonic
  /-- The operands are not of the mnemonic's form (R47, R48). Raised by `parseBody`; safe. -/
  | badOperands
  /-- An immediate does not fit its field, or a quoted character has no ASCII code (R47, R48). Raised by `assembleLine`
  and, for the quoted text of a BYTES or CRC line, by `parseByteOperands`; safe. -/
  | doesNotFit
  deriving DecidableEq, Repr

/-- The edge that a plain line stands for (R47): a command with zero in the ignored data bits, or the port condition
of IDLE or RESET. -/
def lineInput : CoreLine → HostInput
  | .init => commandEdge .init
  | .load imm => commandEdge (.load (BitVec.ofNat 16 imm))
  | .nib imm => commandEdge (.nib (BitVec.ofNat 4 imm))
  | .byte imm => commandEdge (.byte (BitVec.ofNat 8 imm))
  | .idle => .edge ⟨false, false, 0b00#2, 0x0000#16⟩
  | .reset => .edge ⟨true, false, 0b00#2, 0x0000#16⟩

/-- The plain lines that a line stands for: itself, or a pseudo-instruction's expansion (R48). -/
def expandLine : AsmLine → List CoreLine
  | .core l => [l]
  | .bytes bs => bs.map .byte
  | .str text => text.map (fun c => .byte c.toNat)
  | .update r bs => .load r :: bs.map .byte
  | .crc bs => .init :: bs.map .byte
  | .byten b => [.nib (b / 16), .nib (b % 16)]

/-- Assemble one line: its edges, or an assembly error when an operand does not fit (R47). -/
def assembleLine (l : AsmLine) : Except AsmError (List HostInput) :=
  if l.wellFormed then .ok ((expandLine l).map lineInput) else .error .doesNotFit

/-- Assemble a program, one line after the other. -/
def assemble : List AsmLine → Except AsmError (List HostInput)
  | [] => .ok []
  | l :: rest =>
    match assembleLine l with
    | .error e => .error e
    | .ok es =>
      match assemble rest with
      | .error e => .error e
      | .ok more => .ok (es ++ more)

/-! The text of a line. -/

/-- White space inside a line. -/
def isBlank (c : Char) : Bool := c == ' ' || c == '\t' || c == '\r'

/-- The text without its leading white space. -/
def dropBlank : List Char → List Char
  | [] => []
  | c :: cs => if isBlank c then dropBlank cs else c :: cs

/-- The text without white space at its ends. -/
def trimBlank (cs : List Char) : List Char := (dropBlank (dropBlank cs).reverse).reverse

/-- The text up to the `;` that starts a comment (R47), where a `;` between double quotes starts none. -/
def cutComment (quoted : Bool) : List Char → List Char
  | [] => []
  | c :: cs =>
    if c == '"' then c :: cutComment (!quoted) cs
    else if c == ';' && !quoted then []
    else c :: cutComment quoted cs

/-- The pieces of a text between the separators. -/
def splitAtChar (sep : Char) : List Char → List (List Char)
  | [] => [[]]
  | c :: cs =>
    match splitAtChar sep cs with
    | [] => [[c]]
    | w :: ws => if c == sep then [] :: w :: ws else (c :: w) :: ws

/-- The value of a decimal digit. -/
def decimalDigit (c : Char) : Option Nat :=
  if '0'.toNat ≤ c.toNat ∧ c.toNat ≤ '9'.toNat then some (c.toNat - '0'.toNat) else none

/-- The value of a hex digit. -/
def hexDigit (c : Char) : Option Nat :=
  if 'a'.toNat ≤ c.toNat ∧ c.toNat ≤ 'f'.toNat then some (c.toNat - 'a'.toNat + 10)
  else if 'A'.toNat ≤ c.toNat ∧ c.toNat ≤ 'F'.toNat then some (c.toNat - 'A'.toNat + 10)
  else decimalDigit c

/-- The value of a text of hex or decimal digits, read after the value `acc`. -/
def digitsValue (hex : Bool) (acc : Nat) : List Char → Option Nat
  | [] => some acc
  | c :: cs =>
    match (if hex then hexDigit c else decimalDigit c) with
    | some d => digitsValue hex (acc * (if hex then 16 else 10) + d) cs
    | none => none

/-- An immediate: a hex (`0x..`) or decimal literal (R47). -/
def parseNumber : List Char → Option Nat
  | [] => none
  | '0' :: 'x' :: d :: ds => digitsValue true 0 (d :: ds)
  | cs => digitsValue false 0 cs

/-- A list of immediates, one for each piece of text. -/
def parseNumbers : List (List Char) → Option (List Nat)
  | [] => some []
  | w :: ws =>
    match parseNumber (trimBlank w), parseNumbers ws with
    | some n, some ns => some (n :: ns)
    | _, _ => none

/-- The operands of a line, separated by commas; none where the text is empty (R48). -/
def parseOperands (cs : List Char) : Option (List Nat) :=
  match cs with
  | [] => some []
  | c :: rest => parseNumbers (splitAtChar ',' (c :: rest))

/-- The text between the double quotes of a `STR` line, up to the closing quote that ends the line (R48). -/
def parseQuoted : List Char → Option (List Char)
  | [] => none
  | ['"'] => some []
  | c :: cs => if c == '"' then none else (parseQuoted cs).map (c :: ·)

/-- A line with one immediate. -/
def oneOperand (mk : Nat → AsmLine) (ops : Option (List Nat)) : Except AsmError AsmLine :=
  match ops with
  | some [n] => .ok (mk n)
  | _ => .error .badOperands

/-- A line with no operand. -/
def noOperand (l : AsmLine) (ops : Option (List Nat)) : Except AsmError AsmLine :=
  match ops with
  | some [] => .ok l
  | _ => .error .badOperands

/-- The bytes of a BYTES or CRC line: immediates separated by commas (R48), or the ASCII codes of one quoted text. The
quoted form is the model's choice (DESIGN CHOICE, log entry 6): R48 gives these two lines the comma form alone, and
95_test_vectors.md writes `CRC "123456789"` (P1) and `BYTES "123456789"` (P4-L). -/
def parseByteOperands (rest : List Char) : Except AsmError (List Nat) :=
  match rest with
  | '"' :: t =>
    match parseQuoted t with
    | some text => if text.all isAscii then .ok (text.map Char.toNat) else .error .doesNotFit
    | none => .error .badOperands
  | _ =>
    match parseOperands rest with
    | some ns => .ok ns
    | none => .error .badOperands

/-- A line with any number of bytes. -/
def byteOperands (mk : List Nat → AsmLine) (rest : List Char) : Except AsmError AsmLine :=
  match parseByteOperands rest with
  | .ok ns => .ok (mk ns)
  | .error e => .error e

/-- The line with the mnemonic `m` and the operand text `rest` (R47, R48). That BYTES and CRC take a quoted text beside
R48's list of bytes is the model's choice (log entry 6). -/
def parseBody (m rest : List Char) : Except AsmError AsmLine :=
  let ops := parseOperands rest
  if m == ['I', 'N', 'I', 'T'] then noOperand (.core .init) ops
  else if m == ['L', 'O', 'A', 'D'] then oneOperand (fun n => .core (.load n)) ops
  else if m == ['N', 'I', 'B'] then oneOperand (fun n => .core (.nib n)) ops
  else if m == ['B', 'Y', 'T', 'E'] then oneOperand (fun n => .core (.byte n)) ops
  else if m == ['I', 'D', 'L', 'E'] then noOperand (.core .idle) ops
  else if m == ['R', 'E', 'S', 'E', 'T'] then noOperand (.core .reset) ops
  else if m == ['B', 'Y', 'T', 'E', 'S'] then byteOperands .bytes rest
  else if m == ['B', 'Y', 'T', 'E', 'N'] then oneOperand .byten ops
  else if m == ['C', 'R', 'C'] then byteOperands .crc rest
  else if m == ['U', 'P', 'D', 'A', 'T', 'E'] then
    match ops with
    | some (r :: bs) => .ok (.update r bs)
    | _ => .error .badOperands
  else if m == ['S', 'T', 'R'] then
    match rest with
    | '"' :: t =>
      match parseQuoted t with
      | some text => .ok (.str text)
      | none => .error .badOperands
    | _ => .error .badOperands
  else .error .unknownMnemonic

/-- One line of text (R47); none for a line that is empty or holds a comment only. -/
def parseLine (text : List Char) : Except AsmError (Option AsmLine) :=
  let cs := trimBlank (cutComment false text)
  match cs with
  | [] => .ok none
  | c :: rest =>
    match parseBody ((c :: rest).takeWhile (fun x => !isBlank x))
        (trimBlank ((c :: rest).dropWhile (fun x => !isBlank x))) with
    | .ok l => .ok (some l)
    | .error e => .error e

/-- The lines of a program's text, one command a line (R47). -/
def parseLines : List (List Char) → Except AsmError (List AsmLine)
  | [] => .ok []
  | t :: ts =>
    match parseLine t with
    | .error e => .error e
    | .ok none => parseLines ts
    | .ok (some l) =>
      match parseLines ts with
      | .error e => .error e
      | .ok ls => .ok (l :: ls)

/-- A program's text to the edges its host drives. -/
def assembleText (text : List Char) : Except AsmError (List HostInput) :=
  match parseLines (splitAtChar '\n' text) with
  | .error e => .error e
  | .ok ls => assemble ls

end Sys2Proof.Machine
end

