-- ==== Sys2Proof/Machine/Platform.lean ====
section
/-! DEFINITION. A platform with any number of CRC16N instances (60_exceptions.md R76). Each has its own `crc`, its own
ports and its own inputs; no signal passes between instances. -/

namespace Sys2Proof.Machine

/-- One step of the instance at position `k`; where there is none, nothing happens. -/
def platformStep (k : Nat) (ps : List State) : Host.Outcome (List State) Fault Refusal :=
  match ps[k]? with
  | none => .next ps
  | some s =>
    match step s with
    | .next t => .next (ps.set k t)
    | .fault r => .fault r
    | .refused r => .refused r

end Sys2Proof.Machine
end

