-- ==== Sys2Proof/Machine/Reference.lean ====
section
/-! DEFINITION. The checksum of a message (40_crc_ops.md R61, 10_state.md R21), the bit-serial CRC it is compared with
(R63, 00_scope.md R1), and the host's writing of it as two bytes (20_memory.md R29). -/

namespace Sys2Proof.Machine

/-- Eight MSB-first bit steps applied to `r XOR (zext16(b) << 8)` (R63). -/
def bitSerialByte (r : Word) (b : Byte) : Word := bitSteps 8 (r ^^^ (zext16 b <<< 8))

/-- A message byte as the configuration takes it in (R1, R5 `CRC_REFIN`). -/
def messageByte (b : Byte) : Byte := if Config.crcRefIn then b.reverse else b

/-- The final step of the configuration: output reflection, then the final XOR (R1, R5). -/
def finalValue (r : Word) : Word :=
  (if Config.crcRefOut then r.reverse else r) ^^^ Config.crcXorOut

/-- The bit-serial register after a message. -/
def bitSerialRegister (r : Word) : List Byte → Word
  | [] => r
  | b :: rest => bitSerialRegister (bitSerialByte r (messageByte b)) rest

/-- The CRC of a message computed bit by bit from the parameters of R1 alone, with no table. -/
def bitSerialCrc (message : List Byte) : Word := finalValue (bitSerialRegister Config.crcInit message)

/-- The checksum of a message: `Update(0x1D0F, M)` (R61). -/
def checksum (rom : Vector Word 16) (message : List Byte) : Word := update rom Config.crcInit message

/-- A 16-bit value as two bytes in the order `CRC_BYTE_ORDER`, an argument because the spec leaves it OPEN (R29). -/
def serialise (order : Config.ByteOrder) (v : Word) : List Byte :=
  match order with
  | .highFirst => [highByte v, lowByte v]
  | .lowFirst => [lowByte v, highByte v]

end Sys2Proof.Machine
end

