-- ==== Sys2Proof/Safety.lean ====
section
/-! DEFINITION. The words that statements about runs use: the host's duties (70_reset_and_hazards.md R83, R84), the
invariant of the state, and inputs that feed message bytes (40_crc_ops.md R57, R59). -/

namespace Sys2Proof.Machine

/-- The commands whose effect is computed from the old `crc` (R55). -/
def readsCrc : Instr → Bool
  | .byte _ => true
  | .nib _ => true
  | .load _ => false
  | .init => false

/-- The register holds a defined value (R14). -/
def CrcReg.isWritten : CrcReg → Bool
  | .unwritten => false
  | .holds _ => true

/-- The host's duties along a list of inputs, from a `crc` that is written or not: every edge has valid levels (R84),
and `crc` is defined by a reset, an INIT or a LOAD before a NIB, a BYTE or a read of `crc_out` uses it (R83). -/
def hostKeepsDuty (written : Bool) : List HostInput → Bool
  | [] => true
  | .edge p :: rest =>
    if p.rst then hostKeepsDuty true rest
    else if p.cmdValid then
      if readsCrc (decodeFields p.cmdOp p.cmdData) then written && hostKeepsDuty written rest
      else hostKeepsDuty true rest
    else hostKeepsDuty written rest
  | .badEdge :: _ => false
  | .readOut :: rest => written && hostKeepsDuty written rest
  | .powerCycle :: rest => hostKeepsDuty false rest

/-- The ROM holds the table of R17, as it does for the life of the device (R19). -/
abbrev State.romOk (s : State) : Prop := s.rom = romTable

/-- The invariant: the ROM is intact, and what the host does next keeps its duties from the present `crc`. -/
abbrev State.Inv (s : State) : Prop := s.romOk ∧ hostKeepsDuty s.crc.isWritten s.inputs = true

/-- The message byte that an input feeds: one byte for an accepted BYTE command, none for an idle edge or a read of
`crc_out`, and no answer for an input that does anything else. -/
def fedBytes : HostInput → Option (List Byte)
  | .edge p =>
    if p.rst then none
    else if p.cmdValid then
      match decodeFields p.cmdOp p.cmdData with
      | .byte b => some [b]
      | .nib _ => none
      | .load _ => none
      | .init => none
    else some []
  | .badEdge => none
  | .readOut => some []
  | .powerCycle => none

/-- The message that a list of inputs feeds, in order (R27), when every input is a BYTE command, an idle edge or a
read of `crc_out`. -/
def fedMessage : List HostInput → Option (List Byte)
  | [] => some []
  | e :: rest =>
    match fedBytes e, fedMessage rest with
    | some bs, some more => some (bs ++ more)
    | _, _ => none

/-- The machine of the host's interface, run for `k` steps. -/
def runSteps (k : Nat) (s : State) : Host.Outcome State Fault Refusal := Sys2Proof.core.run k s

/-- A second instruction after a first one that completes. -/
def execThen (i j : Instr) (s : State) : Host.Outcome State Fault Refusal :=
  match exec i s with
  | .next t => exec j t
  | .fault r => .fault r
  | .refused r => .refused r

end Sys2Proof.Machine
end

