-- ==== Sys2Proof/Certificates/Slice0/Obligations.lean ====
section
/-! DEFINITION. The statements for the provers. Each docstring names the rules of spec/ it formalises; a clause that
rests on a choice of the model names its log entry. -/

open Sys2Proof Sys2Proof.Machine

/-! ## Encoding -/

/-- R39: the opcode map. `op` alone selects the command, each takes its operand from the low data bits, and every
command word matches exactly one of the four match and mask pairs, that of its command. -/
def Obligations.OpcodeMapSelectsByOp : Prop :=
  (∀ c : Command,
    (c &&& 0x30000#18 = 0x00000#18 → decodeCommand c = .byte (c.extractLsb' 0 8)) ∧
    (c &&& 0x30000#18 = 0x10000#18 → decodeCommand c = .nib (c.extractLsb' 0 4)) ∧
    (c &&& 0x30000#18 = 0x20000#18 → decodeCommand c = .load (c.extractLsb' 0 16)) ∧
    (c &&& 0x30000#18 = 0x30000#18 → decodeCommand c = .init)) ∧
  (∀ c : Command, ∃ row ∈ opcodeRows, row.matchesWord c = true ∧
    row.mnemonic = (decodeCommand c).mnemonic ∧
    ∀ row' ∈ opcodeRows, row'.matchesWord c = true → row' = row)

/-- Decoding the canonical word of any command, at every operand value, gives the command back (R39 to R43). -/
def Obligations.DecodeEncodeRoundTrip : Prop :=
  ∀ i : Instr, decodeCommand (encode i) = i ∧ decodeWord (encode i).toNat = .ok i

/-- Encoding what a command word decodes to gives that word with exactly its ignored data bits cleared: BYTE
`data[15:8]`, NIB `data[15:4]`, INIT `data[15:0]`, LOAD none (R44, R47). -/
def Obligations.EncodeDecodeClearsIgnoredBits : Prop :=
  ∀ c : Command,
    (c.extractLsb' 16 2 = 0b00#2 → encode (decodeCommand c) = c &&& 0x300FF#18) ∧
    (c.extractLsb' 16 2 = 0b01#2 → encode (decodeCommand c) = c &&& 0x3000F#18) ∧
    (c.extractLsb' 16 2 = 0b10#2 → encode (decodeCommand c) = c) ∧
    (c.extractLsb' 16 2 = 0b11#2 → encode (decodeCommand c) = c &&& 0x30000#18)

/-- Every number below 2^18 decodes to a command (R44). The second clause is the model's choice (DESIGN CHOICE, log
entry 4), not a rule of the spec: a number of 2^18 or more, which is no 18-bit word, is rejected under the name
`notACommandWord`. -/
def Obligations.DecodingIsTotalOnCommandWords : Prop :=
  ∀ n : Nat,
    (n < 2 ^ 18 → ∃ i : Instr, decodeWord n = .ok i) ∧
    (2 ^ 18 ≤ n → decodeWord n = .error .notACommandWord)

/-- Words written out in R47, R50 and the programs of 95_test_vectors.md decode to the commands they stand for. -/
def Obligations.SpecWordsDecode : Prop :=
  decodeWord 0x00031 = .ok (.byte 0x31#8) ∧ decodeWord 0x0AB31 = .ok (.byte 0x31#8) ∧
  decodeWord 0x10003 = .ok (.nib 0x3#4) ∧ decodeWord 0x1FFF2 = .ok (.nib 0x2#4) ∧
  decodeWord 0x21D0F = .ok (.load 0x1D0F#16) ∧ decodeWord 0x2D999 = .ok (.load 0xD999#16) ∧
  decodeWord 0x30000 = .ok .init ∧ decodeWord 0x3FFFF = .ok .init

/-- R44: every command word decodes to one of the four commands, none is illegal (from a written `crc` every one
completes), and the data bits that a command does not use have no effect on any edge from any state. -/
def Obligations.EveryWordIsLegalAndUnusedBitsAreIgnored : Prop :=
  (∀ c : Command, (∃ b, decodeCommand c = .byte b) ∨ (∃ n, decodeCommand c = .nib n) ∨
    (∃ v, decodeCommand c = .load v) ∨ decodeCommand c = .init) ∧
  (∀ (c : Command) (s : State) (v : Word), s.crc = .holds v → ∃ t, onEdge (commandPorts c) s = .next t) ∧
  (∀ (op : OpField) (d e : Word) (rst valid : Bool) (s : State),
    (op = 0b00#2 → d.extractLsb' 0 8 = e.extractLsb' 0 8) →
    (op = 0b01#2 → d.extractLsb' 0 4 = e.extractLsb' 0 4) →
    (op = 0b10#2 → d = e) →
    onEdge ⟨rst, valid, op, d⟩ s = onEdge ⟨rst, valid, op, e⟩ s)

/-! ## Commands -/

/-- R50: INIT, its encoding, its effect from every state (an unwritten `crc` too), and two INITs in a row. -/
def Obligations.InitSeedsTheFixedValue : Prop :=
  encode .init = 0x30000#18 ∧
  (∀ c : Command, c.extractLsb' 16 2 = 0b11#2 → decodeCommand c = .init) ∧
  (∀ s : State, exec .init s = .next { s with crc := .holds 0x1D0F#16 }) ∧
  (∀ s : State, execThen .init .init s = .next { s with crc := .holds 0x1D0F#16 })

/-- R51: LOAD, its encoding, its effect from every state (an unwritten `crc` too), and `LOAD 0x1D0F` as INIT. -/
def Obligations.LoadWritesItsOperand : Prop :=
  (∀ v : Word, encode (.load v) = 0x20000#18 ||| v.setWidth 18) ∧
  (∀ c : Command, c.extractLsb' 16 2 = 0b10#2 → decodeCommand c = .load (c.extractLsb' 0 16)) ∧
  (∀ (s : State) (v : Word), exec (.load v) s = .next { s with crc := .holds v }) ∧
  (∀ s : State, exec (.load 0x1D0F#16) s = exec .init s)

/-- R49: the nibble step over arithmetic of unbounded width with `trunc16`, and its equal form
`t XOR {r[11:0], 0b0000}`, for all 2^20 inputs and any ROM contents. -/
def Obligations.NibStepIsTruncatedTableStep : Prop :=
  ∀ (rom : Vector Word 16) (r : Word) (n : Nibble),
    nibStep rom r n =
      trunc16 ((romRead rom ((r.extractLsb' 12 4 ^^^ n) &&& 0xF#4)).toNat ^^^ (r.toNat <<< 4)) ∧
    nibStep rom r n = romRead rom (r.extractLsb' 12 4 ^^^ n) ^^^ (r.extractLsb' 0 12 ++ 0b0000#4) ∧
    (∀ i : Nibble, romRead rom i = rom[i.toNat]'i.isLt)

/-- R52: NIB, its encoding, its one ROM read, its effect, its corner cases and example on the ROM of R17, and the
model's fault while `crc` is unwritten. -/
def Obligations.NibFoldsOneNibble : Prop :=
  (∀ n : Nibble, encode (.nib n) = 0x10000#18 ||| n.setWidth 18) ∧
  (∀ c : Command, c.extractLsb' 16 2 = 0b01#2 → decodeCommand c = .nib (c.extractLsb' 0 4)) ∧
  (∀ (rom : Vector Word 16) (r : Word) (n : Nibble), (romIndices rom r (.nib n)).length = 1) ∧
  (∀ (s : State) (v : Word) (n : Nibble), s.crc = .holds v →
    exec (.nib n) s = .next { s with crc := .holds (nibStep s.rom v n) }) ∧
  (∀ (s : State) (n : Nibble), s.crc = .unwritten → exec (.nib n) s = .fault .crcUnwritten) ∧
  (∀ (s : State) (v : Word), s.romOk → s.crc = .holds v →
    exec (.nib (v.extractLsb' 12 4)) s = .next { s with crc := .holds (v <<< 4) }) ∧
  (∀ (s : State) (n : Nibble), s.romOk → s.crc = .holds 0x0000#16 →
    exec (.nib n) s = .next { s with crc := .holds (romRead romTable n) }) ∧
  (∀ s : State, s.romOk → s.crc = .holds 0xFFFF#16 →
    exec (.nib 0x0#4) s = .next { s with crc := .holds 0x0E1F#16 }) ∧
  (∀ s : State, s.romOk → s.crc = .holds 0x1D0F#16 →
    exec (.nib 0x3#4) s = .next { s with crc := .holds 0xF0B2#16 })

/-- R53: BYTE, its encoding, its two ROM reads, its effect (high nibble first), the same end state as two NIBs, its
corner cases and example on the ROM of R17, and the model's fault while `crc` is unwritten. -/
def Obligations.ByteFoldsHighNibbleFirst : Prop :=
  (∀ b : Byte, encode (.byte b) = b.setWidth 18) ∧
  (∀ c : Command, c.extractLsb' 16 2 = 0b00#2 → decodeCommand c = .byte (c.extractLsb' 0 8)) ∧
  (∀ (rom : Vector Word 16) (r : Word) (b : Byte), (romIndices rom r (.byte b)).length = 2) ∧
  (∀ (s : State) (v : Word) (b : Byte), s.crc = .holds v →
    exec (.byte b) s = .next { s with
      crc := .holds (nibStep s.rom (nibStep s.rom v (b.extractLsb' 4 4)) (b.extractLsb' 0 4)) }) ∧
  (∀ (s : State) (b : Byte), s.crc = .unwritten → exec (.byte b) s = .fault .crcUnwritten) ∧
  (∀ (s : State) (b : Byte),
    execThen (.nib (b.extractLsb' 4 4)) (.nib (b.extractLsb' 0 4)) s = exec (.byte b) s) ∧
  (∃ (r : Word) (b : Byte),
    nibStep romTable (nibStep romTable r (b.extractLsb' 0 4)) (b.extractLsb' 4 4) ≠ byteStep romTable r b) ∧
  (∀ s : State, s.romOk → s.crc = .holds 0x0000#16 →
    exec (.byte 0x00#8) s = .next { s with crc := .holds 0x0000#16 } ∧
    exec (.byte 0x01#8) s = .next { s with crc := .holds 0x1021#16 }) ∧
  (∀ s : State, s.romOk → s.crc = .holds 0x1D0F#16 →
    exec (.byte 0x31#8) s = .next { s with crc := .holds 0xEAEE#16 })

/-- R62: nibbles fed low first give what BYTE of the swapped byte gives, and the rule's example. -/
def Obligations.NibbleOrderIsPartOfTheFunction : Prop :=
  (∀ (s : State) (lo hi : Nibble),
    execThen (.nib lo) (.nib hi) s = exec (.byte (byteOfNibbles lo hi)) s) ∧
  (∀ s : State, s.romOk → s.crc = .holds 0x1D0F#16 →
    exec (.byte 0x31#8) s = .next { s with crc := .holds 0xEAEE#16 } ∧
    execThen (.nib 0x1#4) (.nib 0x3#4) s = .next { s with crc := .holds 0xEECE#16 } ∧
    exec (.byte 0x13#8) s = .next { s with crc := .holds 0xEECE#16 })

/-- R55, the frame of all four commands: a command writes `crc` and nothing else, completes from every written `crc`,
and its result depends on the ROM, its operand and, for NIB and BYTE alone, the old `crc`. -/
def Obligations.CommandsWriteOnlyCrc : Prop :=
  (∀ (i : Instr) (s t : State), exec i s = .next t →
    t.rom = s.rom ∧ t.inputs = s.inputs ∧ t.crc.isWritten = true) ∧
  (∀ (i : Instr) (s : State) (v : Word), s.crc = .holds v → ∃ t, exec i s = .next t) ∧
  (∀ (i : Instr) (s u t : State), u.rom = s.rom → (readsCrc i = true → u.crc = s.crc) →
    exec i s = .next t → exec i u = .next { u with crc := t.crc })

/-- A command reads no ROM entry but those at its own indices: two ROMs that agree there give the same result, and
BYTE reads two entries, NIB one, LOAD and INIT none (R16, R25, R31). -/
def Obligations.CommandsReadOnlyTheirRomEntries : Prop :=
  (∀ (i : Instr) (s u t : State) (r : Word), s.crc = .holds r → u.crc = .holds r →
    (∀ k ∈ romIndices s.rom r i, romRead u.rom k = romRead s.rom k) →
    exec i s = .next t → exec i u = .next { u with crc := t.crc }) ∧
  (∀ (rom : Vector Word 16) (r : Word) (b : Byte) (n : Nibble) (v : Word),
    (romIndices rom r (.byte b)).length = 2 ∧ (romIndices rom r (.nib n)).length = 1 ∧
    romIndices rom r (.load v) = [] ∧ romIndices rom r .init = [])

/-- A command faults exactly when it is a NIB or a BYTE and `crc` is unwritten (R14, R85), and none is ever refused:
nothing else can fail (R67). -/
def Obligations.CommandFaultsExactlyWhenCrcUnwritten : Prop :=
  ∀ (i : Instr) (s : State),
    (∀ r : Fault, exec i s = .fault r ↔
      r = .crcUnwritten ∧ s.crc = .unwritten ∧ ((∃ b, i = .byte b) ∨ (∃ n, i = .nib n))) ∧
    (∀ r : Refusal, exec i s ≠ .refused r)

/-! ## The ROM -/

/-- R18: every entry of the ROM is what the bit-serial generator gives for its index, which is the product
`i * 0x1021`, which is `(i << 12) XOR (i << 5) XOR i`. -/
def Obligations.RomEntriesAreGenerated : Prop :=
  (∀ c : Word, bitStep c = if c.getLsbD 15 = true then (c <<< 1) ^^^ 0x1021#16 else c <<< 1) ∧
  (∀ i : Nibble,
    gen i = bitStep (bitStep (bitStep (bitStep (zext16 i <<< 12)))) ∧
    romRead romTable i = gen i ∧
    gen i = zext16 i * 0x1021#16 ∧
    gen i = (zext16 i <<< 12) ^^^ (zext16 i <<< 5) ^^^ zext16 i)

/-- No step writes the ROM, whatever the host does, and a step takes exactly the host's next input (R15, R19; the
list of inputs is the model's own, log entry 3). -/
def Obligations.NoStepWritesTheRom : Prop :=
  ∀ s t : State, step s = .next t → t.rom = s.rom ∧ t.inputs = s.inputs.tail

/-! ## Edges and reset -/

/-- R86: the next-state function of one rising edge, written out, for a written `crc` and for an unwritten one. -/
def Obligations.EdgeIsTheNextStateFunction : Prop :=
  (∀ (s : State) (p : Ports) (v : Word), s.crc = .holds v →
    onEdge p s = .next { s with crc := .holds (
      if p.rst = true then 0x1D0F#16
      else if p.cmdValid = false then v
      else if p.cmdOp = 0b00#2 then
        nibStep s.rom (nibStep s.rom v (p.cmdData.extractLsb' 4 4)) (p.cmdData.extractLsb' 0 4)
      else if p.cmdOp = 0b01#2 then nibStep s.rom v (p.cmdData.extractLsb' 0 4)
      else if p.cmdOp = 0b10#2 then p.cmdData
      else 0x1D0F#16) }) ∧
  (∀ (s : State) (p : Ports), s.crc = .unwritten →
    onEdge p s =
      if p.rst = true then .next { s with crc := .holds 0x1D0F#16 }
      else if p.cmdValid = false then .next s
      else if p.cmdOp = 0b00#2 then .fault .crcUnwritten
      else if p.cmdOp = 0b01#2 then .fault .crcUnwritten
      else if p.cmdOp = 0b10#2 then .next { s with crc := .holds p.cmdData }
      else .next { s with crc := .holds 0x1D0F#16 }) ∧
  (∀ (s t : State) (p : Ports) (w : Word), onEdge p s = .next t → t.crc = .holds w → crcOut t = .ok w)

/-- R54: an idle edge changes nothing, an unwritten `crc` included, whatever `cmd_op` and `cmd_data` are. -/
def Obligations.IdleEdgeChangesNothing : Prop :=
  ∀ (s : State) (op : OpField) (data : Word) (rest : List HostInput),
    s.inputs = .edge ⟨false, false, op, data⟩ :: rest → step s = .next { s with inputs := rest }

/-- R80: a reset edge writes 0x1D0F whatever `crc` and the command ports are, discards a command at that edge, leaves
the ROM alone, and shows 0x1D0F on `crc_out`. -/
def Obligations.ResetEdgeWritesTheResetValue : Prop :=
  ∀ (s : State) (valid : Bool) (op : OpField) (data : Word) (rest : List HostInput),
    s.inputs = .edge ⟨true, valid, op, data⟩ :: rest →
    step s = .next { s with crc := .holds 0x1D0F#16, inputs := rest } ∧
    crcOut { s with crc := .holds 0x1D0F#16, inputs := rest } = .ok 0x1D0F#16

/-- R81: reset held over any number of edges, and the first edge after it, which is ordinary. -/
def Obligations.ResetHeldThenOrdinaryEdge : Prop :=
  ∀ (s : State) (ps : List Ports) (rest : List HostInput),
    ps ≠ [] → (∀ p ∈ ps, p.rst = true) → s.inputs = ps.map .edge ++ rest →
    runSteps ps.length s = .next { s with crc := .holds 0x1D0F#16, inputs := rest } ∧
    (∀ (op : OpField) (data : Word) (more : List HostInput),
      (rest = .edge ⟨false, true, op, data⟩ :: more →
        runSteps (ps.length + 1) s =
          exec (decodeFields op data) { s with crc := .holds 0x1D0F#16, inputs := more }) ∧
      (rest = .edge ⟨false, false, op, data⟩ :: more →
        runSteps (ps.length + 1) s = .next { s with crc := .holds 0x1D0F#16, inputs := more }))

/-- R82: `crc`, `crc_out` and the ROM after power-up and after a reset edge. -/
def Obligations.PowerUpAndResetTable : Prop :=
  State.powerUp.crc = .unwritten ∧ crcOut State.powerUp = .error .crcOutUndefined ∧
  State.powerUp.rom = romTable ∧
  State.reset.crc = .holds 0x1D0F#16 ∧ crcOut State.reset = .ok 0x1D0F#16 ∧ State.reset.rom = romTable ∧
  (∀ s : State, (resetEdge s).crc = .holds 0x1D0F#16 ∧ crcOut (resetEdge s) = .ok 0x1D0F#16 ∧
    (resetEdge s).rom = s.rom)

/-- A step at which a command is accepted is the meaning of the command that the word `{cmd_op, cmd_data}` decodes to,
in the state without that input (R37, R86). -/
def Obligations.StepRunsTheAcceptedCommand : Prop :=
  ∀ (s : State) (op : OpField) (data : Word) (rest : List HostInput),
    s.inputs = .edge ⟨false, true, op, data⟩ :: rest →
    step s = exec (decodeCommand (op ++ data)) { s with inputs := rest }

/-- A word presented by `withFetchWord` runs at the very next step, from every state (the model's own interface, log
entry 4). -/
def Obligations.FetchedWordRunsNext : Prop :=
  ∀ (s : State) (nbits w : Nat) (i : Instr), 18 ≤ nbits → decodeWord w = .ok i →
    decodeTableWord nbits w = some i ∧ step (s.withFetchWord nbits w) = exec i s

/-- R60: what an edge does is a function of `crc`, the ROM and the ports alone: nothing the host does later changes
it. -/
def Obligations.EdgeDependsOnCrcAndPortsAlone : Prop :=
  ∀ (s u : State) (p : Ports), u.crc = s.crc → u.rom = s.rom →
    (∀ t, onEdge p s = .next t → onEdge p u = .next { u with crc := t.crc }) ∧
    (∀ r, onEdge p s = .fault r → onEdge p u = .fault r) ∧
    (∀ r, onEdge p s = .refused r → onEdge p u = .refused r)

/-! ## The output, power and the host's duties -/

/-- `crc_out` is `crc` with no final XOR and no reflection, and a step changes it only when an edge with `rst` or
`cmd_valid` comes or power is lost (R21, R79). -/
def Obligations.CrcOutFollowsCrc : Prop :=
  (∀ (s : State) (v : Word), crcOut s = .ok v ↔ s.crc = .holds v) ∧
  (∀ v : Word, finalValue v = v) ∧
  (∀ s t : State, step s = .next t → crcOut t ≠ crcOut s →
    ∃ rest, (∃ p : Ports, s.inputs = .edge p :: rest ∧ (p.rst = true ∨ p.cmdValid = true)) ∨
      s.inputs = .powerCycle :: rest)

/-- A read of `crc_out` has no side effect, and while `crc` is unwritten it faults (R14, R32). -/
def Obligations.ReadingCrcOutChangesNothing : Prop :=
  ∀ (s : State) (rest : List HostInput), s.inputs = .readOut :: rest →
    (∀ v, s.crc = .holds v → crcOut s = .ok v ∧ step s = .next { s with inputs := rest }) ∧
    (s.crc = .unwritten → step s = .fault .crcOutUndefined)

/-- R87: before the accepting edge `crc_out` shows the old value, just after it the command's result, and that stays
through idle edges and reads. `Config.cmdLatency` is `CMD_LATENCY` = 1. -/
def Obligations.ResultAppearsAfterOneEdge : Prop :=
  ∀ (s u : State) (v w : Word) (i : Instr) (idles rest : List HostInput),
    s.crc = .holds v → s.inputs = commandEdge i :: (idles ++ rest) → fedMessage idles = some [] →
    exec i s = .next u → u.crc = .holds w →
    crcOut s = .ok v ∧
    (∃ t, step s = .next t ∧ crcOut t = .ok w) ∧
    (∀ k, k ≤ idles.length → ∃ t, runSteps (Config.cmdLatency + k) s = .next t ∧ crcOut t = .ok w)

/-- Loss and return of power leave `crc` unwritten and the ROM as it was (R19, R79); with no input no edge comes and
`crc` keeps its value (R79). The event is the model's (log entry 5). -/
def Obligations.PowerLossLeavesCrcUnwritten : Prop :=
  (∀ (s : State) (rest : List HostInput), s.inputs = .powerCycle :: rest →
    step s = .next { s with crc := .unwritten, inputs := rest }) ∧
  (∀ s : State, s.inputs = [] → step s = .next s)

/-- Exactly when a step stops: it is refused only at an edge where the host breaks its input duty (R84), and it faults
only where an unwritten `crc` is used by an accepted NIB or BYTE or read on `crc_out` (R14, R85). -/
def Obligations.StepStopsExactlyOnBrokenDuties : Prop :=
  ∀ s : State,
    (∀ r : Refusal, step s = .refused r ↔
      r = .inputDutyBroken ∧ ∃ rest, s.inputs = .badEdge :: rest) ∧
    (∀ r : Fault, step s = .fault r ↔
      s.crc = .unwritten ∧
      ((r = .crcOutUndefined ∧ ∃ rest, s.inputs = .readOut :: rest) ∨
       (r = .crcUnwritten ∧ ∃ op data rest, s.inputs = .edge ⟨false, true, op, data⟩ :: rest ∧
          (op = 0b00#2 ∨ op = 0b01#2))))

/-- The invariant is kept by every step, and every step from it completes: while the host keeps its duties (R83, R84)
the ROM stays the table of R17 (R19) and no step faults or is refused (R67). -/
def Obligations.StepKeepsTheInvariant : Prop :=
  ∀ s : State, s.Inv → ∃ t, step s = .next t ∧ t.Inv

/-- The invariant holds after reset for every list of inputs that keeps the host's duties, and after power-up for every
such list that defines `crc` before its use (R82, R83). -/
def Obligations.InvariantHoldsAtReset : Prop :=
  State.reset.Inv ∧
  (∀ es : List HostInput, hostKeepsDuty true es = true → ({ State.reset with inputs := es } : State).Inv) ∧
  (∀ es : List HostInput, hostKeepsDuty false es = true → ({ State.powerUp with inputs := es } : State).Inv)

/-- A run over all the host's inputs completes if and only if the host keeps its duties along them (R83, R84, R85). -/
def Obligations.RunCompletesExactlyWhenDutyKept : Prop :=
  ∀ s : State,
    (∃ t, runSteps s.inputs.length s = .next t) ↔ hostKeepsDuty s.crc.isWritten s.inputs = true

/-! ## Sequences of commands -/

/-- R88: commands on consecutive edges, each using the result of the one before it, with no spacing; they take effect
in acceptance order (R34). -/
def Obligations.ConsecutiveCommandsTakeEffectInOrder : Prop :=
  ∀ (is : List Instr) (s : State) (v : Word) (rest : List HostInput),
    s.crc = .holds v → s.inputs = is.map commandEdge ++ rest →
    runSteps is.length s = .next { s with
      inputs := rest
      crc := .holds (is.foldl (fun r i =>
        match i with
        | .byte b => nibStep s.rom (nibStep s.rom r (b.extractLsb' 4 4)) (b.extractLsb' 0 4)
        | .nib n => nibStep s.rom r n
        | .load x => x
        | .init => 0x1D0F#16) v) }

/-- R57: after `LOAD r` and one BYTE command per byte of `data`, in order, with any idle edges (and reads of `crc_out`)
in between and any ignored bits, `crc_out` is `Update(r, data)`, the left fold of the byte step. -/
def Obligations.LoadThenBytesComputesUpdate : Prop :=
  (∀ (rom : Vector Word 16) (r : Word), update rom r [] = r) ∧
  (∀ (rom : Vector Word 16) (r : Word) (b : Byte) (rest : List Byte),
    update rom r (b :: rest) = update rom (byteStep rom r b) rest ∧
    byteStep rom r b = nibStep rom (nibStep rom r (b.extractLsb' 4 4)) (b.extractLsb' 0 4)) ∧
  (∀ (s : State) (r : Word) (es rest : List HostInput) (data : List Byte),
    s.inputs = commandEdge (.load r) :: (es ++ rest) → fedMessage es = some data →
    ∃ t, runSteps (1 + es.length) s = .next t ∧ crcOut t = .ok (update s.rom r data) ∧
      t.rom = s.rom ∧ t.inputs = rest)

/-- R58: an empty message leaves the register unchanged, on CRC16N as in the source's `update`; without a BYTE command
the run needs no ROM entry and writes nothing. -/
def Obligations.EmptyMessageChangesNothing : Prop :=
  (∀ (rom : Vector Word 16) (r : Word), update rom r [] = r) ∧
  (∀ (s : State) (es rest : List HostInput), s.crc.isWritten = true → fedMessage es = some [] →
    s.inputs = es ++ rest → runSteps es.length s = .next { s with inputs := rest })

/-- R59: streaming equivalence. A message in two parts gives what the whole gives; and a host that saves `crc_out`
after the first part, does anything else, and later LOADs the saved value before the second part gets the same
result. -/
def Obligations.ChunkBoundariesDoNotMatter : Prop :=
  (∀ (rom : Vector Word 16) (r : Word) (A B : List Byte),
    update rom (update rom r A) B = update rom r (A ++ B)) ∧
  (∀ (s t u : State) (r saved : Word) (as bs rest more : List HostInput) (A B : List Byte),
    s.crc = .holds r → s.inputs = as ++ rest → fedMessage as = some A →
    runSteps as.length s = .next t → crcOut t = .ok saved →
    u.rom = s.rom → u.inputs = commandEdge (.load saved) :: (bs ++ more) → fedMessage bs = some B →
    ∃ w, runSteps (1 + bs.length) u = .next w ∧ crcOut w = .ok (update s.rom r (A ++ B)))

/-- The checksum of a message (R61): from any state, after INIT and the message's BYTE commands, `crc_out` is
`Update(0x1D0F, M)`; with the ROM of R17 that is the CRC computed bit by bit from the parameters of R1, with no
table (R63). -/
def Obligations.ChecksumIsTheBitSerialCrc : Prop :=
  ∀ (s : State) (es rest : List HostInput) (message : List Byte),
    s.inputs = commandEdge .init :: (es ++ rest) → fedMessage es = some message →
    ∃ t, runSteps (1 + es.length) s = .next t ∧ crcOut t = .ok (update s.rom 0x1D0F#16 message) ∧
      (s.romOk → crcOut t = .ok (bitSerialCrc message))

/-- R63: on the ROM of R17 the byte step equals eight MSB-first bit steps of the polynomial 0x1021 applied to
`r XOR (zext16(b) << 8)`. -/
def Obligations.ByteStepEqualsEightBitSteps : Prop :=
  (∀ c : Word, bitStep c = if c.getLsbD 15 = true then (c <<< 1) ^^^ 0x1021#16 else c <<< 1) ∧
  (∀ (r : Word) (b : Byte),
    byteStep romTable r b =
      bitStep (bitStep (bitStep (bitStep (bitStep (bitStep (bitStep (bitStep (r ^^^ (zext16 b <<< 8))))))))))

/-- The residue property (95_test_vectors.md V-RES, 93 G6): appending the checksum high byte first gives 0x0000. -/
def Obligations.AppendedChecksumLeavesZero : Prop :=
  ∀ (r : Word) (message : List Byte),
    update romTable r (message ++ serialise .highFirst (update romTable r message)) = 0x0000#16

/-! ## The assembler -/

/-- Plain assembly lines (R47): each assembles to its one edge, with zero in the ignored data bits, exactly when its
immediate fits its field, and is an assembly error otherwise. The port values at the edges of IDLE and RESET are the
model's choice (log entry 6). -/
def Obligations.PlainLinesAssemble : Prop :=
  assembleLine (.core .init) = .ok [.edge ⟨false, true, 0b11#2, 0x0000#16⟩] ∧
  (∀ imm : Nat, assembleLine (.core (.load imm)) =
    if imm < 0x10000 then .ok [.edge ⟨false, true, 0b10#2, BitVec.ofNat 16 imm⟩] else .error .doesNotFit) ∧
  (∀ imm : Nat, assembleLine (.core (.nib imm)) =
    if imm < 0x10 then .ok [.edge ⟨false, true, 0b01#2, BitVec.ofNat 16 imm⟩] else .error .doesNotFit) ∧
  (∀ imm : Nat, assembleLine (.core (.byte imm)) =
    if imm < 0x100 then .ok [.edge ⟨false, true, 0b00#2, BitVec.ofNat 16 imm⟩] else .error .doesNotFit) ∧
  assembleLine (.core .idle) = .ok [.edge ⟨false, false, 0b00#2, 0x0000#16⟩] ∧
  assembleLine (.core .reset) = .ok [.edge ⟨true, false, 0b00#2, 0x0000#16⟩]

/-- What the edges of each pseudo-instruction do when its line assembles (derived from R48, R53 and R57; the edges
themselves are in `PseudoInstructionsExpandToCommands`). From a written `crc`, BYTES and STR fold their bytes in order;
from any state UPDATE gives `Update(r, [b0..bk])` and CRC the checksum of a fresh message; BYTEN has the end state of
`BYTE b` over two edges. -/
def Obligations.PseudoInstructionsRun : Prop :=
  (∀ (s : State) (v : Word) (bs : List Nat) (es rest : List HostInput),
    assembleLine (.bytes bs) = .ok es → s.crc = .holds v → s.inputs = es ++ rest →
    es.length = bs.length ∧ runSteps es.length s = .next { s with
      crc := .holds (update s.rom v (bs.map (BitVec.ofNat 8))), inputs := rest }) ∧
  (∀ (s : State) (v : Word) (text : List Char) (es rest : List HostInput),
    assembleLine (.str text) = .ok es → s.crc = .holds v → s.inputs = es ++ rest →
    es.length = text.length ∧ runSteps es.length s = .next { s with
      crc := .holds (update s.rom v (text.map (fun c => BitVec.ofNat 8 c.toNat))), inputs := rest }) ∧
  (∀ (s : State) (r : Nat) (bs : List Nat) (es rest : List HostInput),
    assembleLine (.update r bs) = .ok es → s.inputs = es ++ rest →
    es.length = bs.length + 1 ∧ runSteps es.length s = .next { s with
      crc := .holds (update s.rom (BitVec.ofNat 16 r) (bs.map (BitVec.ofNat 8))), inputs := rest }) ∧
  (∀ (s : State) (bs : List Nat) (es rest : List HostInput),
    assembleLine (.crc bs) = .ok es → s.inputs = es ++ rest →
    es.length = bs.length + 1 ∧ runSteps es.length s = .next { s with
      crc := .holds (update s.rom 0x1D0F#16 (bs.map (BitVec.ofNat 8))), inputs := rest }) ∧
  (∀ (s : State) (b : Nat) (v : Word) (es rest : List HostInput),
    assembleLine (.byten b) = .ok es → s.crc = .holds v → s.inputs = es ++ rest →
    es.length = 2 ∧ runSteps 2 s = .next { s with
      crc := .holds (byteStep s.rom v (BitVec.ofNat 8 b)), inputs := rest })

/-! ## Several instances -/

/-- Instances are independent (R76): a step of one changes that one alone, as its own step does, and steps of two
instances can be taken in either order. -/
def Obligations.InstancesAreIndependent : Prop :=
  (∀ (k : Nat) (ps qs : List State), platformStep k ps = .next qs →
    (∀ j, j ≠ k → qs[j]? = ps[j]?) ∧
    (∀ s, ps[k]? = some s → ∃ t, step s = .next t ∧ qs[k]? = some t)) ∧
  (∀ (j k : Nat) (ps qs rs : List State), j ≠ k →
    platformStep j ps = .next qs → platformStep k qs = .next rs →
    ∃ xs, platformStep k ps = .next xs ∧ platformStep j xs = .next rs)

/-! ## Expansion of the pseudo-instructions -/

/-- R48's expansions (what they compute is in `PseudoInstructionsRun`): a pseudo-instruction whose operands fit assembles to exactly the command edges of its expansion, in order,
with zero in the ignored data bits. BYTES: one BYTE per byte, and nothing for an empty list. STR: BYTES over the ASCII
codes. UPDATE: LOAD r, then the BYTEs. CRC: INIT, then the BYTEs. BYTEN: NIB b[7:4], then NIB b[3:0]. -/
def Obligations.PseudoInstructionsExpandToCommands : Prop :=
  (∀ bs : List Nat, (∀ b ∈ bs, b < 0x100) →
    assembleLine (.bytes bs) = .ok (bs.map fun b => .edge ⟨false, true, 0b00#2, BitVec.ofNat 16 b⟩)) ∧
  (∀ text : List Char, (∀ c ∈ text, c.toNat < 128) →
    assembleLine (.str text) = .ok (text.map fun c => .edge ⟨false, true, 0b00#2, BitVec.ofNat 16 c.toNat⟩) ∧
    assembleLine (.str text) = assembleLine (.bytes (text.map Char.toNat))) ∧
  (∀ (r : Nat) (bs : List Nat), r < 0x10000 → (∀ b ∈ bs, b < 0x100) →
    assembleLine (.update r bs) = .ok (.edge ⟨false, true, 0b10#2, BitVec.ofNat 16 r⟩ ::
      bs.map fun b => .edge ⟨false, true, 0b00#2, BitVec.ofNat 16 b⟩)) ∧
  (∀ bs : List Nat, (∀ b ∈ bs, b < 0x100) →
    assembleLine (.crc bs) = .ok (.edge ⟨false, true, 0b11#2, 0x0000#16⟩ ::
      bs.map fun b => .edge ⟨false, true, 0b00#2, BitVec.ofNat 16 b⟩)) ∧
  (∀ b : Byte, assembleLine (.byten b.toNat) = .ok
    [.edge ⟨false, true, 0b01#2, (b.extractLsb' 4 4).setWidth 16⟩,
     .edge ⟨false, true, 0b01#2, (b.extractLsb' 0 4).setWidth 16⟩])

/-- A pseudo-instruction with an operand that does not fit is an assembly error: R47 requires every immediate to fit its
field, and the bytes of a pseudo-instruction are BYTE immediates, its register value a LOAD immediate. The name
`doesNotFit`, and the refusal of a `STR` character with a code of 128 or more, are the model's choice (log entry 6). -/
def Obligations.PseudoInstructionsRejectWhatDoesNotFit : Prop :=
  (∀ bs : List Nat, (∃ b ∈ bs, 0x100 ≤ b) →
    assembleLine (.bytes bs) = .error .doesNotFit ∧ assembleLine (.crc bs) = .error .doesNotFit ∧
    ∀ r : Nat, assembleLine (.update r bs) = .error .doesNotFit) ∧
  (∀ (r : Nat) (bs : List Nat), 0x10000 ≤ r → assembleLine (.update r bs) = .error .doesNotFit) ∧
  (∀ text : List Char, (∃ c ∈ text, 128 ≤ c.toNat) → assembleLine (.str text) = .error .doesNotFit) ∧
  (∀ b : Nat, 0x100 ≤ b → assembleLine (.byten b) = .error .doesNotFit)
end

