-- ==== Sys2Proof/Laws/Decode.lean ====
section
/-! SUPPORT. The fields of a composed command word, and the operands of a zero-extended data field. -/

namespace Sys2Proof

open Sys2Proof.Machine

@[simp] theorem cmdOpOf_mkCommand (op : OpField) (data : Word) : cmdOpOf (mkCommand op data) = op := by
  apply BitVec.eq_of_getLsbD_eq
  intro i hi
  rw [BitVec.getLsbD_extractLsb']
  change (decide (i < 2) && ((op ++ data : BitVec (2 + 16)).getLsbD (16 + i))) = _
  rw [BitVec.getLsbD_append]
  simp [hi]

@[simp] theorem cmdDataOf_mkCommand (op : OpField) (data : Word) : cmdDataOf (mkCommand op data) = data := by
  apply BitVec.eq_of_getLsbD_eq
  intro i hi
  rw [BitVec.getLsbD_extractLsb']
  change (decide (i < 16) && ((op ++ data : BitVec (2 + 16)).getLsbD (0 + i))) = _
  rw [BitVec.getLsbD_append]
  simp [hi]

@[simp] theorem byteOperand_zext16 (b : Byte) : byteOperand (zext16 b) = b := by
  apply BitVec.eq_of_getLsbD_eq
  intro i hi
  simp [byteOperand, zext16, hi]
  omega

@[simp] theorem nibOperand_zext16 (n : Nibble) : nibOperand (zext16 n) = n := by
  apply BitVec.eq_of_getLsbD_eq
  intro i hi
  simp [nibOperand, zext16, hi]
  omega

/-- Decoding a composed command word is decoding its fields. -/
@[simp] theorem decodeCommand_mkCommand (op : OpField) (data : Word) :
    decodeCommand (mkCommand op data) = decodeFields op data := by
  unfold decodeCommand
  rw [cmdOpOf_mkCommand, cmdDataOf_mkCommand]

theorem commandOfNat_of_lt {n : Nat} (h : n < 2 ^ 18) : commandOfNat n = some (BitVec.ofNat 18 n) := if_pos h

theorem commandOfNat_of_le {n : Nat} (h : 2 ^ 18 ≤ n) : commandOfNat n = none := if_neg (Nat.not_lt.mpr h)

end Sys2Proof
end

