-- ==== Sys2Proof/Laws/Asm.lean ====
section
/-! SUPPORT. When a line assembles, and the edges of its plain lines. -/

namespace Sys2Proof.Machine

theorem assembleLine_of_wellFormed {l : AsmLine} (h : l.wellFormed = true) :
    assembleLine l = .ok ((expandLine l).map lineInput) := by simp [assembleLine, h]

theorem assembleLine_of_not_wellFormed {l : AsmLine} (h : l.wellFormed = false) :
    assembleLine l = .error .doesNotFit := by simp [assembleLine, h]

/-- A line that assembles is well formed, and its edges are those of its expansion. -/
theorem assembleLine_ok {l : AsmLine} {es : List HostInput} (h : assembleLine l = .ok es) :
    l.wellFormed = true ∧ es = (expandLine l).map lineInput := by
  cases hw : l.wellFormed with
  | false => rw [assembleLine_of_not_wellFormed hw] at h; cases h
  | true => rw [assembleLine_of_wellFormed hw] at h; cases h; exact ⟨rfl, rfl⟩

/-- The edge of a command carries its `op` and its data field. -/
theorem commandEdge_eq (i : Instr) : commandEdge i = .edge ⟨false, true, opcodeOf i.mnemonic, dataOf i⟩ := by
  unfold commandEdge commandPorts encode
  rw [cmdOpOf_mkCommand, cmdDataOf_mkCommand]

end Sys2Proof.Machine
end

