-- ==== Sys2Proof/Laws/State.lean ====
section
/-! SUPPORT. One lemma per field and update of the state, and what reading `crc` gives. -/

namespace Sys2Proof.Machine

@[simp] theorem State.writeCrc_crc (s : State) (v : Word) : (s.writeCrc v).crc = .holds v := rfl
@[simp] theorem State.writeCrc_rom (s : State) (v : Word) : (s.writeCrc v).rom = s.rom := rfl
@[simp] theorem State.writeCrc_inputs (s : State) (v : Word) : (s.writeCrc v).inputs = s.inputs := rfl

@[simp] theorem State.writeCrc_writeCrc (s : State) (v w : Word) :
    (s.writeCrc v).writeCrc w = s.writeCrc w := rfl

/-- Writing the value that `crc` holds changes nothing. -/
theorem State.writeCrc_self {s : State} {v : Word} (h : s.crc = .holds v) : s.writeCrc v = s := by
  cases s; simp_all [State.writeCrc]

@[simp] theorem resetEdge_crc (s : State) : (resetEdge s).crc = .holds Config.crcResetValue := rfl
@[simp] theorem resetEdge_rom (s : State) : (resetEdge s).rom = s.rom := rfl
@[simp] theorem resetEdge_inputs (s : State) : (resetEdge s).inputs = s.inputs := rfl

@[simp] theorem idleEdge_eq (s : State) : idleEdge s = s := rfl

@[simp] theorem powerCycle_crc (s : State) : (powerCycle s).crc = .unwritten := rfl
@[simp] theorem powerCycle_rom (s : State) : (powerCycle s).rom = s.rom := rfl
@[simp] theorem powerCycle_inputs (s : State) : (powerCycle s).inputs = s.inputs := rfl

/-- `crc_out` while `crc` holds a value (R21). -/
theorem crcOut_of_holds {s : State} {v : Word} (h : s.crc = .holds v) : crcOut s = .ok v := by
  simp [crcOut, h]

/-- `crc_out` while `crc` is unwritten (R14). -/
theorem crcOut_of_unwritten {s : State} (h : s.crc = .unwritten) : crcOut s = .error .crcOutUndefined := by
  simp [crcOut, h]

end Sys2Proof.Machine
end

