-- ==== Sys2Proof/Laws/Ops.lean ====
section
/-! SUPPORT. What each shared operation can do, said once, and the equations of the four meanings over them. -/

namespace Sys2Proof.Machine

/-- The index mask of R49 changes nothing: a nibble is already in 0..15. -/
@[simp] theorem nibIndex_eq (r : Word) (n : Nibble) : nibIndex r n = topNibble r ^^^ n := by
  unfold nibIndex
  exact BitVec.and_allOnes

theorem foldCrc_of_holds {f : Word → Word} {s : State} {v : Word} (h : s.crc = .holds v) :
    foldCrc f s = .next (s.writeCrc (f v)) := by
  simp [foldCrc, h]

theorem foldCrc_of_unwritten {f : Word → Word} {s : State} (h : s.crc = .unwritten) :
    foldCrc f s = .fault .crcUnwritten := by
  simp [foldCrc, h]

/-- Everything a completed read and write of `crc` does. -/
theorem foldCrc_next {f : Word → Word} {s t : State} (h : foldCrc f s = .next t) :
    ∃ v, s.crc = .holds v ∧ t = s.writeCrc (f v) := by
  cases hc : s.crc with
  | unwritten => rw [foldCrc_of_unwritten hc] at h; cases h
  | holds v => rw [foldCrc_of_holds hc] at h; cases h; exact ⟨v, rfl, rfl⟩

theorem readOut_of_holds {s : State} {v : Word} (h : s.crc = .holds v) : readOut s = .next s := by
  simp [readOut, crcOut, h]

theorem readOut_of_unwritten {s : State} (h : s.crc = .unwritten) : readOut s = .fault .crcOutUndefined := by
  simp [readOut, crcOut, h]

@[simp] theorem exec_byte (b : Byte) (s : State) :
    exec (.byte b) s = foldCrc (fun r => byteStep s.rom r b) s := rfl
@[simp] theorem exec_nib (n : Nibble) (s : State) :
    exec (.nib n) s = foldCrc (fun r => nibStep s.rom r n) s := rfl
@[simp] theorem exec_load (v : Word) (s : State) : exec (.load v) s = .next (s.writeCrc v) := rfl
@[simp] theorem exec_init (s : State) : exec .init s = .next (s.writeCrc Config.crcInit) := rfl

/-- A command that completes writes some value to `crc`, and that is all it does. -/
theorem exec_next {i : Instr} {s t : State} (h : exec i s = .next t) : ∃ v, t = s.writeCrc v := by
  cases i with
  | byte b => obtain ⟨v, -, rfl⟩ := foldCrc_next h; exact ⟨_, rfl⟩
  | nib n => obtain ⟨v, -, rfl⟩ := foldCrc_next h; exact ⟨_, rfl⟩
  | load v => cases h; exact ⟨_, rfl⟩
  | init => cases h; exact ⟨_, rfl⟩

@[simp] theorem update_nil (rom : Vector Word 16) (r : Word) : update rom r [] = r := rfl
@[simp] theorem update_cons (rom : Vector Word 16) (r : Word) (b : Byte) (rest : List Byte) :
    update rom r (b :: rest) = update rom (byteStep rom r b) rest := rfl

end Sys2Proof.Machine
end

