-- ==== Sys2Proof/Laws/PerInstr.lean ====
section
/-! SUPPORT. Statements for every command, one lemma per constructor. `OpcodeRowMatches`: the canonical word of the
command matches the row of opcode_table.json with its mnemonic, and only that row (R39). -/

namespace Sys2Proof.Laws.OpcodeRowMatches

open Sys2Proof Sys2Proof.Machine

/-- The rows that the canonical word matches are exactly the row of the command's mnemonic. -/
def Statement (i : Instr) : Prop :=
  (opcodeRows.filter (fun row => row.matchesWord (encode i))).map OpcodeRow.mnemonic = [i.mnemonic]

/-- The bits of a composed word under the mask of every row are its `op` field. -/
theorem mkCommand_and_mask (op : OpField) (data : Word) :
    mkCommand op data &&& 0x30000#18 = op ++ 0x0000#16 := by
  have h : (0x30000#18 : Command) = (0b11#2 ++ 0x0000#16 : Command) := by decide
  rw [h]
  change (op ++ data) &&& _ = _
  rw [BitVec.and_append, BitVec.and_zero]
  congr 1
  exact BitVec.and_allOnes

theorem matches_iff (row : OpcodeRow) (hm : row.mask = 0x30000#18) (op : OpField) (data : Word) :
    row.matchesWord (mkCommand op data) = (op ++ 0x0000#16 == row.pattern) := by
  unfold OpcodeRow.matchesWord
  rw [hm, mkCommand_and_mask]

theorem statement_of_op (i : Instr) (m : Mnemonic) (hm : i.mnemonic = m)
    (h : (opcodeRows.filter (fun row => opcodeOf m ++ 0x0000#16 == row.pattern)).map OpcodeRow.mnemonic = [m]) :
    Statement i := by
  unfold Statement
  rw [hm, ← h]
  congr 1
  apply List.filter_congr
  intro row hrow
  have hmask : row.mask = 0x30000#18 := by
    simp only [opcodeRows, List.mem_cons, List.not_mem_nil, or_false] at hrow
    rcases hrow with rfl | rfl | rfl | rfl <;> rfl
  unfold encode
  rw [matches_iff row hmask, hm]

theorem byte (b : Byte) : Statement (.byte b) := statement_of_op _ .byte rfl (by decide)
theorem nib (n : Nibble) : Statement (.nib n) := statement_of_op _ .nib rfl (by decide)
theorem load (v : Word) : Statement (.load v) := statement_of_op _ .load rfl (by decide)
theorem init : Statement .init := statement_of_op _ .init rfl (by decide)

end Sys2Proof.Laws.OpcodeRowMatches
end

