-- ==== Sys2Proof/Laws/Rom.lean ====
section
/-! SUPPORT. Small facts about the bit step and the message functions. -/

namespace Sys2Proof.Machine

/-- The bit step is linear over XOR. -/
theorem bitStep_xor (a b : Word) : bitStep (a ^^^ b) = bitStep a ^^^ bitStep b := by
  unfold bitStep
  rw [BitVec.getLsbD_xor, BitVec.shiftLeft_xor_distrib]
  cases a.getLsbD 15 <;> cases b.getLsbD 15 <;> simp <;> ac_nf
  simp

theorem bitSteps_xor (k : Nat) (a b : Word) : bitSteps k (a ^^^ b) = bitSteps k a ^^^ bitSteps k b := by
  induction k generalizing a b with
  | zero => rfl
  | succ k ih =>
    change bitSteps k (bitStep (a ^^^ b)) = bitSteps k (bitStep a) ^^^ bitSteps k (bitStep b)
    rw [bitStep_xor, ih]

/-- Neither bytes nor results are reflected, and no final XOR is applied (R5, R21). -/
@[simp] theorem messageByte_eq (b : Byte) : messageByte b = b := rfl

@[simp] theorem bitSerialRegister_nil (r : Word) : bitSerialRegister r [] = r := rfl
@[simp] theorem bitSerialRegister_cons (r : Word) (b : Byte) (rest : List Byte) :
    bitSerialRegister r (b :: rest) = bitSerialRegister (bitSerialByte r b) rest := rfl

end Sys2Proof.Machine
end

