-- ==== Sys2Proof/Laws/Step.lean ====
section
/-! SUPPORT. What a step does for each kind of input, and how runs compose. -/

namespace Sys2Proof.Machine

theorem step_nil {s : State} (h : s.inputs = []) : step s = .next s := by simp [step, h]

theorem step_cons {s : State} {e : HostInput} {rest : List HostInput} (h : s.inputs = e :: rest) :
    step s = onInput e { s with inputs := rest } := by simp [step, h]

@[simp] theorem onInput_edge (p : Ports) (s : State) : onInput (.edge p) s = onEdge p s := rfl
@[simp] theorem onInput_badEdge (s : State) : onInput .badEdge s = .refused .inputDutyBroken := rfl
@[simp] theorem onInput_readOut (s : State) : onInput .readOut s = readOut s := rfl
@[simp] theorem onInput_powerCycle (s : State) : onInput .powerCycle s = .next (powerCycle s) := rfl

@[simp] theorem onEdge_rst (valid : Bool) (op : OpField) (data : Word) (s : State) :
    onEdge ⟨true, valid, op, data⟩ s = .next (resetEdge s) := rfl
@[simp] theorem onEdge_idle (op : OpField) (data : Word) (s : State) :
    onEdge ⟨false, false, op, data⟩ s = .next s := rfl
@[simp] theorem onEdge_command (op : OpField) (data : Word) (s : State) :
    onEdge ⟨false, true, op, data⟩ s = exec (decodeFields op data) s := rfl

/-- An edge that completes leaves `crc` as it was or writes it, and that is all it does. -/
theorem onEdge_next {p : Ports} {s t : State} (h : onEdge p s = .next t) : t = s ∨ ∃ v, t = s.writeCrc v := by
  obtain ⟨rst, valid, op, data⟩ := p
  cases rst with
  | true => cases h; exact .inr ⟨_, rfl⟩
  | false =>
    cases valid with
    | true => exact .inr (exec_next h)
    | false => cases h; exact .inl rfl

@[simp] theorem runSteps_zero (s : State) : runSteps 0 s = .next s := rfl

/-- One step of a run, for any machine behind the host's interface. -/
theorem run_succ (M : Host.Core) (k : Nat) (s : M.State) :
    M.run (k + 1) s =
      match M.step s with
      | .next t => M.run k t
      | .fault r => .fault r
      | .refused r => .refused r := by
  cases h : M.step s <;> simp only [Host.Core.run, h]

theorem run_of_next {M : Host.Core} {s t : M.State} (k : Nat) (h : M.step s = .next t) :
    M.run (k + 1) s = M.run k t := by rw [run_succ, h]

theorem run_of_fault {M : Host.Core} {s : M.State} {r : M.Fault} (k : Nat) (h : M.step s = .fault r) :
    M.run (k + 1) s = .fault r := by rw [run_succ, h]

theorem run_of_refused {M : Host.Core} {s : M.State} {r : M.Refusal} (k : Nat) (h : M.step s = .refused r) :
    M.run (k + 1) s = .refused r := by rw [run_succ, h]

theorem runSteps_of_next {s t : State} (k : Nat) (h : step s = .next t) :
    runSteps (k + 1) s = runSteps k t := run_of_next (M := Sys2Proof.core) k h

theorem runSteps_of_fault {s : State} {r : Fault} (k : Nat) (h : step s = .fault r) :
    runSteps (k + 1) s = .fault r := run_of_fault (M := Sys2Proof.core) k h

theorem runSteps_of_refused {s : State} {r : Refusal} (k : Nat) (h : step s = .refused r) :
    runSteps (k + 1) s = .refused r := run_of_refused (M := Sys2Proof.core) k h

/-- A run goes on from where a completed run ends. -/
theorem runSteps_add {j : Nat} {s t : State} (k : Nat) (h : runSteps j s = .next t) :
    runSteps (j + k) s = runSteps k t := by
  induction j generalizing s with
  | zero => cases h; rw [Nat.zero_add]
  | succ j ih =>
    rw [Nat.add_right_comm]
    cases hs : step s with
    | next u => rw [runSteps_of_next _ hs] at h ⊢; exact ih h
    | fault r => rw [runSteps_of_fault _ hs] at h; cases h
    | refused r => rw [runSteps_of_refused _ hs] at h; cases h

end Sys2Proof.Machine
end

