-- ==== Sys2Proof/Tests/Slice0.lean ====
section
/-! SUPPORT. Tests of the model and witnesses of the statements. Expected values come from the spec's own examples and
vectors (95_test_vectors.md, and the examples of R47 and R50 to R54), never from the model. -/

namespace Sys2Proof.Tests

open Sys2Proof Sys2Proof.Machine

/-- A state whose `crc` holds `v`, with the ROM of R17. -/
def holding (v : Word) (es : List HostInput) : State := ⟨.holds v, romTable, es⟩

/-- A state after power-up, `crc` unwritten. -/
def unwritten (es : List HostInput) : State := ⟨.unwritten, romTable, es⟩

/-- An idle edge that presents a LOAD word, as edge 5 of program P4. -/
def idle : HostInput := .edge ⟨false, false, 0b10#2, 0x1234#16⟩

/-- A reset edge that presents BYTE 0x31, as edge 2 of program P4. -/
def resetWithByte : HostInput := .edge ⟨true, true, 0b00#2, 0x0031#16⟩

/-! ## Well-formedness: one ill-formed term for each check (R47, R48) -/

theorem test_load_too_wide : AsmLine.wellFormed (.core (.load 0x10000)) = false := by decide
theorem test_nib_too_wide : AsmLine.wellFormed (.core (.nib 0x10)) = false := by decide
theorem test_byte_too_wide : AsmLine.wellFormed (.core (.byte 0x100)) = false := by decide
theorem test_bytes_too_wide : AsmLine.wellFormed (.bytes [0x31, 0x100]) = false := by decide
theorem test_str_not_ascii : AsmLine.wellFormed (.str ['é']) = false := by decide
theorem test_update_register_too_wide : AsmLine.wellFormed (.update 0x10000 []) = false := by decide
theorem test_update_byte_too_wide : AsmLine.wellFormed (.update 0 [0x100]) = false := by decide
theorem test_crc_too_wide : AsmLine.wellFormed (.crc [0x100]) = false := by decide
theorem test_byten_too_wide : AsmLine.wellFormed (.byten 0x100) = false := by decide
theorem test_widest_operands_fit : (AsmLine.wellFormed (.update 0xFFFF [0xFF]) &&
    AsmLine.wellFormed (.core (.nib 0xF)) && AsmLine.wellFormed (.byten 0xFF)) = true := by decide

/-! ## Decoding: words written out bit by bit from R38 and R39 -/

theorem test_decode_byte :
    decodeCommand 0b00_00000000_00110001#18 = .byte 0b00110001#8 := by decide
theorem test_decode_byte_ignores :
    decodeCommand 0b00_10101011_00110001#18 = .byte 0b00110001#8 := by decide
theorem test_decode_nib :
    decodeCommand 0b01_000000000000_0011#18 = .nib 0b0011#4 := by decide
theorem test_decode_nib_ignores :
    decodeCommand 0b01_111111111111_0010#18 = .nib 0b0010#4 := by decide
theorem test_decode_load :
    decodeCommand 0b10_0001110100001111#18 = .load 0b0001110100001111#16 := by decide
theorem test_decode_init :
    decodeCommand 0b11_0000000000000000#18 = .init := by decide
theorem test_decode_init_ignores :
    decodeCommand 0b11_1111111111111111#18 = .init := by decide
theorem test_encode_words : encode (.load 0x1D0F#16) = 0x21D0F#18 ∧ encode (.nib 0x3#4) = 0x10003#18 ∧
    encode (.byte 0x31#8) = 0x00031#18 ∧ encode .init = 0x30000#18 := by decide
theorem test_decode_too_wide : decodeWord 0x40000 = .error .notACommandWord := by decide
theorem test_decode_table_word : decodeTableWord 24 0x2D999 = some (.load 0xD999#16) := by decide

/-! ## The ROM (R17, R18): the literal table is the generated one -/

theorem test_rom_ends : romRead romTable 0x0#4 = 0x0000#16 ∧ romRead romTable 0xF#4 = 0xF1EF#16 := by decide
theorem test_rom_is_generated : ∀ i : Nibble, romRead romTable i = gen i := by decide

/-- R5: the fixed parameters, and the parts of the model whose size they give. -/
theorem test_parameters : romTable.size = Config.romEntries ∧ Config.cmdWidth = 18 ∧ Config.cmdLatency = 1 ∧
    (romIndices romTable 0x1D0F#16 (.byte 0x31#8)).length = Config.nibblesPerByte ∧
    Config.crcInit = Config.crcResetValue := by decide

/-! ## Commands -/

/-- 95 section 2.2: an unwritten `crc`, no fault. -/
theorem test_init_unwritten : exec .init (unwritten []) = .next (holding 0x1D0F#16 []) := rfl
/-- 95 section 2.3. -/
theorem test_load_zero : exec (.load 0x0000#16) (holding 0xABCD#16 []) = .next (holding 0x0000#16 []) := rfl
/-- 95 section 2.3: an unwritten `crc`, no fault. -/
theorem test_load_unwritten : exec (.load 0x1D0F#16) (unwritten []) = .next (holding 0x1D0F#16 []) := rfl
/-- 95 section 2.4: both the index and the shift matter. -/
theorem test_nib_wraps : exec (.nib 0x5#4) (holding 0xABCD#16 []) = .next (holding 0x4D3F#16 []) := rfl
/-- 95 section 2.4, the last row (R14). -/
theorem test_nib_unwritten : exec (.nib 0x5#4) (unwritten []) = .fault .crcUnwritten := rfl
/-- 95 section 2.5. -/
theorem test_byte_all_ones : exec (.byte 0xFF#8) (holding 0x1D0F#16 []) = .next (holding 0xD26C#16 []) := rfl
/-- 95 P4-F (R14). -/
theorem test_byte_unwritten : exec (.byte 0x31#8) (unwritten []) = .fault .crcUnwritten := rfl

/-! ## Steps -/

/-- 95 section 2.5: BYTE with data 0xAB31 acts as BYTE 0x31. -/
theorem test_step_byte_ignored_bits :
    step (holding 0xEAEE#16 [.edge ⟨false, true, 0b00#2, 0xAB31#16⟩]) = .next (holding 0x9416#16 []) := rfl
/-- 95 section 2.4: NIB with data 0xFFF2 acts as NIB 0x2. -/
theorem test_step_nib_ignored_bits :
    step (holding 0x9416#16 [.edge ⟨false, true, 0b01#2, 0xFFF2#16⟩]) = .next (holding 0xF00B#16 []) := rfl
/-- 95 section 2.2: INIT with the ignored data bits set. -/
theorem test_step_init_ignored_bits :
    step (holding 0x0000#16 [.edge ⟨false, true, 0b11#2, 0xFFFF#16⟩]) = .next (holding 0x1D0F#16 []) := rfl
/-- 95 P4 edge 5: the port values at an idle edge are ignored. -/
theorem test_step_idle : step (holding 0xEAEE#16 [idle]) = .next (holding 0xEAEE#16 []) := rfl
/-- 95 P4 edge 1. -/
theorem test_step_idle_unwritten : step (unwritten [idle]) = .next (unwritten []) := rfl
/-- 95 P4 edge 2: reset wins over a command at the same edge (R71). -/
theorem test_step_reset_priority : step (unwritten [resetWithByte]) = .next (holding 0x1D0F#16 []) := rfl
/-- R84. -/
theorem test_step_bad_edge : step (holding 0x1D0F#16 [.badEdge]) = .refused .inputDutyBroken := rfl
/-- R14, R32. -/
theorem test_step_read : step (holding 0x1D0F#16 [.readOut]) = .next (holding 0x1D0F#16 []) ∧
    step (unwritten [.readOut]) = .fault .crcOutUndefined := ⟨rfl, rfl⟩
/-- R79. -/
theorem test_step_power_cycle : step (holding 0x1D0F#16 [.powerCycle]) = .next (unwritten []) := rfl
/-- The first instruction after reset (95 P1 edge 2). -/
theorem test_fetch_after_reset :
    step (State.reset.withFetchWord 24 0x00031) = .next (holding 0xEAEE#16 []) := rfl

/-! ## Messages (95 sections 1 and 2.7) -/

/-- The ASCII codes of "123456789". -/
def digits19 : List Byte := [0x31#8, 0x32#8, 0x33#8, 0x34#8, 0x35#8, 0x36#8, 0x37#8, 0x38#8, 0x39#8]

/-- V-KA3, the primary regression vector. -/
theorem test_check_value : checksum romTable digits19 = 0xE5CC#16 := by decide +kernel
/-- V-KA3 on the bit-serial side. -/
theorem test_check_value_bit_serial : bitSerialCrc digits19 = 0xE5CC#16 := by decide +kernel
/-- V-RES: the residue with the low byte first. -/
theorem test_residue_low_first :
    update romTable 0x1D0F#16 (digits19 ++ serialise .lowFirst 0xE5CC#16) = 0x0935#16 := by decide +kernel

/-! ## The assembler (R47, R48) -/

theorem test_asm_load : assembleText ['L', 'O', 'A', 'D', ' ', '0', 'x', '1', 'D', '0', 'F', ' ', ';', 'x'] =
    .ok [inputOfNat 0x21D0F] := by decide
theorem test_asm_two_lines : assembleText ['N', 'I', 'B', ' ', '3', '\n', 'R', 'E', 'S', 'E', 'T'] =
    .ok [inputOfNat 0x10003, .edge ⟨true, false, 0b00#2, 0x0000#16⟩] := by decide
theorem test_asm_str : assembleText ['S', 'T', 'R', ' ', '"', '1', ';', '2', '"'] =
    .ok [inputOfNat 0x31, inputOfNat 0x3B, inputOfNat 0x32] := by decide
theorem test_asm_update : assembleText ['U', 'P', 'D', 'A', 'T', 'E', ' ', '0', 'x', 'F', ',', ' ', '4', '9'] =
    .ok [inputOfNat 0x2000F, inputOfNat 0x31] := by decide
/-- 95 P4-L writes `BYTES` with a quoted text (log entry 6); the edges are those of `STR`. -/
theorem test_asm_bytes_quoted : assembleText ['B', 'Y', 'T', 'E', 'S', ' ', '"', '1', '2', '"'] =
    .ok [inputOfNat 0x31, inputOfNat 0x32] := by decide
/-- 95 P1 writes `CRC` with a quoted text (log entry 6). -/
theorem test_asm_crc_quoted : assembleText ['C', 'R', 'C', ' ', '"', '1', '2', '"'] =
    .ok [inputOfNat 0x30000, inputOfNat 0x31, inputOfNat 0x32] := by decide
theorem test_asm_bytes_list : assembleText ['B', 'Y', 'T', 'E', 'S', ' ', '0', 'x', '3', '1', ',', '5', '0'] =
    .ok [inputOfNat 0x31, inputOfNat 0x32] := by decide
theorem test_asm_byten : assembleLine (.byten 0x31) = .ok [inputOfNat 0x10003, inputOfNat 0x10001] := by decide
theorem test_asm_nib_error : assembleText ['N', 'I', 'B', ' ', '0', 'x', '1', '0'] = .error .doesNotFit := by decide
theorem test_asm_bad_operands : assembleText ['I', 'N', 'I', 'T', ' ', '1'] = .error .badOperands := by decide
theorem test_asm_unknown : assembleText ['N', 'O', 'P'] = .error .unknownMnemonic := by decide

/-! ## Witnesses: for every statement with hypotheses, a state and operands that meet them, clause by clause -/

theorem witness_OpcodeMapSelectsByOp :
    0x0FFFF#18 &&& 0x30000#18 = 0x00000#18 ∧ 0x1FFFF#18 &&& 0x30000#18 = 0x10000#18 ∧
    0x2FFFF#18 &&& 0x30000#18 = 0x20000#18 ∧ 0x3FFFF#18 &&& 0x30000#18 = 0x30000#18 := by decide

theorem witness_EncodeDecodeClearsIgnoredBits :
    (0x0FFFF#18).extractLsb' 16 2 = 0b00#2 ∧ (0x1FFFF#18).extractLsb' 16 2 = 0b01#2 ∧
    (0x2FFFF#18).extractLsb' 16 2 = 0b10#2 ∧ (0x3FFFF#18).extractLsb' 16 2 = 0b11#2 := by decide

theorem witness_DecodingIsTotalOnCommandWords : 0x3FFFF < 2 ^ 18 ∧ 2 ^ 18 ≤ 0x40000 := by decide

theorem witness_EveryWordIsLegalAndUnusedBitsAreIgnored :
    (holding 0x0000#16 []).crc = .holds 0x0000#16 ∧
    (0xAB31#16).extractLsb' 0 8 = (0x0031#16).extractLsb' 0 8 ∧
    (0xFFF2#16).extractLsb' 0 4 = (0x0002#16).extractLsb' 0 4 := by decide

theorem witness_InitSeedsTheFixedValue : (0x3FFFF#18).extractLsb' 16 2 = 0b11#2 := by decide

theorem witness_LoadWritesItsOperand : (0x2FFFF#18).extractLsb' 16 2 = 0b10#2 := by decide

/-- The corner states of the clauses of the statements on NIB, BYTE and nibble order. -/
theorem witness_NibFoldsOneNibble :
    (0x1FFFF#18).extractLsb' 16 2 = 0b01#2 ∧ (unwritten []).crc = .unwritten ∧
    ∀ v ∈ [0x0000#16, 0xFFFF#16, 0x1D0F#16], (holding v []).romOk ∧ (holding v []).crc = .holds v :=
  ⟨by decide, rfl, fun _ _ => ⟨rfl, rfl⟩⟩

theorem witness_ByteFoldsHighNibbleFirst :
    (0x0FFFF#18).extractLsb' 16 2 = 0b00#2 ∧ (unwritten []).crc = .unwritten ∧
    ∀ v ∈ [0x0000#16, 0x1D0F#16], (holding v []).romOk ∧ (holding v []).crc = .holds v :=
  ⟨by decide, rfl, fun _ _ => ⟨rfl, rfl⟩⟩

theorem witness_NibbleOrderIsPartOfTheFunction :
    (holding 0x1D0F#16 []).romOk ∧ (holding 0x1D0F#16 []).crc = .holds 0x1D0F#16 := by decide

/-- A command that reads `crc`, and one that does not, from a state whose `crc` differs. -/
theorem witness_CommandsWriteOnlyCrc :
    exec (.byte 0x31#8) (holding 0x1D0F#16 []) = .next (holding 0xEAEE#16 []) ∧
    exec .init (unwritten []) = .next (holding 0x1D0F#16 []) ∧
    (readsCrc (.byte 0x31#8) = true → (holding 0x1D0F#16 [idle]).crc = (holding 0x1D0F#16 []).crc) ∧
    (readsCrc .init = true → (holding 0x0000#16 []).crc = (unwritten []).crc) ∧
    (holding 0x0000#16 []).rom = (unwritten []).rom := ⟨rfl, rfl, by decide, by decide, rfl⟩

/-- A ROM that differs from R17 at index 5 alone, which BYTE 0x31 from 0x1D0F does not read. -/
theorem witness_CommandsReadOnlyTheirRomEntries :
    let u : State := ⟨.holds 0x1D0F#16, romTable.set 5 0xFFFF#16, []⟩
    u.rom ≠ romTable ∧ u.crc = .holds 0x1D0F#16 ∧
    (∀ k ∈ romIndices romTable 0x1D0F#16 (.byte 0x31#8), romRead u.rom k = romRead romTable k) ∧
    exec (.byte 0x31#8) (holding 0x1D0F#16 []) = .next (holding 0xEAEE#16 []) :=
  ⟨by decide, rfl, by decide, rfl⟩

theorem witness_CommandFaultsExactlyWhenCrcUnwritten :
    exec (.nib 0x0#4) (unwritten []) = .fault .crcUnwritten ∧
    exec (.byte 0x00#8) (unwritten []) = .fault .crcUnwritten := ⟨rfl, rfl⟩

theorem witness_NoStepWritesTheRom : step (holding 0xEAEE#16 [idle]) = .next (holding 0xEAEE#16 []) := rfl

theorem witness_EdgeIsTheNextStateFunction :
    (holding 0xFFFF#16 []).crc = .holds 0xFFFF#16 ∧ (unwritten []).crc = .unwritten ∧
    onEdge ⟨false, true, 0b10#2, 0xFFFF#16⟩ (unwritten []) = .next (holding 0xFFFF#16 []) := ⟨rfl, rfl, rfl⟩

theorem witness_IdleEdgeChangesNothing :
    (unwritten [idle]).inputs = .edge ⟨false, false, 0b10#2, 0x1234#16⟩ :: [] := rfl

theorem witness_ResetEdgeWritesTheResetValue :
    (unwritten [resetWithByte]).inputs = .edge ⟨true, true, 0b00#2, 0x0031#16⟩ :: [] := rfl

/-- One reset edge, then a command, and one reset edge, then an idle edge. -/
theorem witness_ResetHeldThenOrdinaryEdge :
    ([⟨true, true, 0b00#2, 0x0031#16⟩] : List Ports) ≠ [] ∧
    (∀ p ∈ ([⟨true, true, 0b00#2, 0x0031#16⟩] : List Ports), p.rst = true) ∧
    (unwritten [resetWithByte, .edge ⟨false, true, 0b11#2, 0xFFFF#16⟩]).inputs =
      [⟨true, true, 0b00#2, 0x0031#16⟩].map .edge ++ .edge ⟨false, true, 0b11#2, 0xFFFF#16⟩ :: [] ∧
    (unwritten [resetWithByte, idle]).inputs =
      [⟨true, true, 0b00#2, 0x0031#16⟩].map .edge ++ .edge ⟨false, false, 0b10#2, 0x1234#16⟩ :: [] := by decide

theorem witness_StepRunsTheAcceptedCommand :
    (holding 0x1D0F#16 [.edge ⟨false, true, 0b00#2, 0x0031#16⟩]).inputs =
      .edge ⟨false, true, 0b00#2, 0x0031#16⟩ :: [] := rfl

theorem witness_FetchedWordRunsNext :
    18 ≤ 18 ∧ 18 ≤ 24 ∧ decodeWord 0x3FFFF = .ok .init ∧ decodeWord 0x00000 = .ok (.byte 0x00#8) := by decide

theorem witness_EdgeDependsOnCrcAndPortsAlone :
    (holding 0x1D0F#16 [idle]).crc = (holding 0x1D0F#16 []).crc ∧
    (holding 0x1D0F#16 [idle]).rom = (holding 0x1D0F#16 []).rom ∧
    onEdge ⟨false, true, 0b00#2, 0x0031#16⟩ (holding 0x1D0F#16 []) = .next (holding 0xEAEE#16 []) ∧
    onEdge ⟨false, true, 0b00#2, 0x0031#16⟩ (unwritten []) = .fault .crcUnwritten := ⟨rfl, rfl, rfl, rfl⟩

/-- `crc_out` changes at a command edge, at a reset edge and at a loss of power. -/
theorem witness_CrcOutFollowsCrc :
    step (holding 0x1D0F#16 [commandEdge (.byte 0x31#8)]) = .next (holding 0xEAEE#16 []) ∧
    crcOut (holding 0xEAEE#16 []) ≠ crcOut (holding 0x1D0F#16 []) ∧
    step (unwritten [resetWithByte]) = .next (holding 0x1D0F#16 []) ∧
    crcOut (holding 0x1D0F#16 []) ≠ crcOut (unwritten [resetWithByte]) ∧
    step (holding 0x1D0F#16 [.powerCycle]) = .next (unwritten []) :=
  ⟨rfl, by simp [crcOut, holding], rfl, by simp [crcOut, holding, unwritten], rfl⟩

theorem witness_ReadingCrcOutChangesNothing :
    (holding 0xFFFF#16 [.readOut]).inputs = .readOut :: [] ∧ (holding 0xFFFF#16 [.readOut]).crc = .holds 0xFFFF#16 ∧
    (unwritten [.readOut]).inputs = .readOut :: [] ∧ (unwritten [.readOut]).crc = .unwritten := by decide

theorem witness_ResultAppearsAfterOneEdge :
    let s := holding 0x1D0F#16 [commandEdge (.byte 0x31#8), idle, .readOut]
    s.crc = .holds 0x1D0F#16 ∧ s.inputs = commandEdge (.byte 0x31#8) :: ([idle, .readOut] ++ []) ∧
    fedMessage [idle, .readOut] = some [] ∧
    exec (.byte 0x31#8) s = .next (holding 0xEAEE#16 s.inputs) ∧
    (holding 0xEAEE#16 s.inputs).crc = .holds 0xEAEE#16 := ⟨rfl, rfl, rfl, rfl, rfl⟩

theorem witness_PowerLossLeavesCrcUnwritten :
    (holding 0x1D0F#16 [.powerCycle]).inputs = .powerCycle :: [] ∧ (holding 0x1D0F#16 []).inputs = [] := by decide

/-- Each side of the statement is met: a refusal, and both faults. -/
theorem witness_StepStopsExactlyOnBrokenDuties :
    step (holding 0x1D0F#16 [.badEdge]) = .refused .inputDutyBroken ∧
    step (unwritten [.readOut]) = .fault .crcOutUndefined ∧
    step (unwritten [commandEdge (.nib 0x0#4)]) = .fault .crcUnwritten := ⟨rfl, rfl, rfl⟩

theorem witness_StepKeepsTheInvariant :
    (unwritten [idle, resetWithByte, commandEdge (.byte 0x31#8), .readOut]).Inv := by decide

theorem witness_InvariantHoldsAtReset :
    hostKeepsDuty true [commandEdge (.byte 0x31#8), .powerCycle, commandEdge .init, .readOut] = true ∧
    hostKeepsDuty false [idle, commandEdge (.load 0x0000#16), commandEdge (.byte 0x31#8)] = true := by decide

/-- Both sides of the equivalence occur: P4-F breaks the duty, P4-L keeps it. -/
theorem witness_RunCompletesExactlyWhenDutyKept :
    hostKeepsDuty (unwritten []).crc.isWritten [idle, commandEdge (.byte 0x31#8)] = false ∧
    hostKeepsDuty (unwritten []).crc.isWritten [commandEdge (.load 0x0000#16), commandEdge (.byte 0x31#8)] = true := by
  decide

theorem witness_ConsecutiveCommandsTakeEffectInOrder :
    let is : List Instr := [.nib 0x3#4, .nib 0x1#4, .load 0xFFFF#16, .byte 0xFF#8, .init]
    (holding 0x1D0F#16 (is.map commandEdge)).crc = .holds 0x1D0F#16 ∧
    (holding 0x1D0F#16 (is.map commandEdge)).inputs = is.map commandEdge ++ [] := by decide

theorem witness_LoadThenBytesComputesUpdate :
    let es := [idle, .edge ⟨false, true, 0b00#2, 0xAB31#16⟩, .readOut, commandEdge (.byte 0x32#8)]
    (unwritten (commandEdge (.load 0x1D0F#16) :: es)).inputs = commandEdge (.load 0x1D0F#16) :: (es ++ []) ∧
    fedMessage es = some [0x31#8, 0x32#8] := by decide

theorem witness_EmptyMessageChangesNothing :
    (holding 0x1D0F#16 [idle, .readOut]).crc.isWritten = true ∧ fedMessage [idle, .readOut] = some [] ∧
    (holding 0x1D0F#16 [idle, .readOut]).inputs = [idle, .readOut] ++ [] := by decide

/-- A first part, a reset, and the resumption, as in program P2. -/
theorem witness_ChunkBoundariesDoNotMatter :
    let as := [commandEdge (.byte 0x31#8)]
    let bs := [idle, commandEdge (.byte 0x32#8)]
    let s := holding 0x1D0F#16 (as ++ [resetWithByte])
    let t := holding 0xEAEE#16 [resetWithByte]
    let u := holding 0x1D0F#16 (commandEdge (.load 0xEAEE#16) :: (bs ++ []))
    s.crc = .holds 0x1D0F#16 ∧ s.inputs = as ++ [resetWithByte] ∧ fedMessage as = some [0x31#8] ∧
    runSteps as.length s = .next t ∧ crcOut t = .ok 0xEAEE#16 ∧ u.rom = s.rom ∧
    u.inputs = commandEdge (.load 0xEAEE#16) :: (bs ++ []) ∧ fedMessage bs = some [0x32#8] :=
  ⟨rfl, rfl, rfl, rfl, rfl, rfl, rfl, rfl⟩

theorem witness_ChecksumIsTheBitSerialCrc :
    let es := [commandEdge (.byte 0x31#8), idle]
    (unwritten (commandEdge .init :: es)).inputs = commandEdge .init :: (es ++ []) ∧
    fedMessage es = some [0x31#8] ∧ (unwritten (commandEdge .init :: es)).romOk := by decide

/-- The bounds of the fields: the last immediate that fits, and the first that does not. -/
theorem witness_PlainLinesAssemble :
    0xFFFF < 0x10000 ∧ ¬ 0x10000 < 0x10000 ∧ 0xF < 0x10 ∧ ¬ 0x10 < 0x10 ∧ 0xFF < 0x100 ∧ ¬ 0x100 < 0x100 := by
  decide

/-- Each pseudo-instruction assembles to edges that a state can hold as its next inputs. -/
theorem witness_PseudoInstructionsRun :
    (∀ l ∈ [AsmLine.bytes [0x00, 0xFF], .str ['1'], .update 0xFFFF [0xFF], .crc [], .byten 0xFF],
      assembleLine l = .ok ((expandLine l).map lineInput) ∧
      (holding 0x1D0F#16 ((expandLine l).map lineInput)).crc = .holds 0x1D0F#16 ∧
      (holding 0x1D0F#16 ((expandLine l).map lineInput)).inputs = (expandLine l).map lineInput ++ []) := by decide

/-- Two instances: a step of the first, then a step of the second. -/
theorem witness_InstancesAreIndependent :
    let a := unwritten [resetWithByte]
    let b := holding 0x1D0F#16 [commandEdge (.byte 0x31#8)]
    (0 : Nat) ≠ 1 ∧ [a, b][0]? = some a ∧
    platformStep 0 [a, b] = .next [holding 0x1D0F#16 [], b] ∧
    platformStep 1 [holding 0x1D0F#16 [], b] = .next [holding 0x1D0F#16 [], holding 0xEAEE#16 []] :=
  ⟨by decide, rfl, rfl, rfl⟩

/-- The bounds of the operands that fit, and an empty list. -/
theorem witness_PseudoInstructionsExpandToCommands :
    (∀ b ∈ [0x00, 0xFF], b < 0x100) ∧ (∀ b ∈ ([] : List Nat), b < 0x100) ∧
    (∀ c ∈ ['1', '~'], c.toNat < 128) ∧ 0xFFFF < 0x10000 :=
  ⟨by simp, by simp, by simp, by omega⟩

/-- The first operands that do not fit, each clause on its own. -/
theorem witness_PseudoInstructionsRejectWhatDoesNotFit :
    (∃ b ∈ [0x31, 0x100], 0x100 ≤ b) ∧ 0x10000 ≤ 0x10000 ∧ (∃ c ∈ ['1', 'é'], 128 ≤ c.toNat) ∧ 0x100 ≤ 0x100 :=
  ⟨⟨0x100, by simp, by omega⟩, by omega, ⟨'é', by simp, by decide⟩, by omega⟩

end Sys2Proof.Tests
end

section
/-! PROOF. The checksum of a message (R57, R61) and its bit-serial form (R1, R63): what an edge that feeds the message
does, what a run of them leaves in `crc`, and why the table step is a run of bit steps. -/

namespace Sys2Proof.Machine

/-! ## The edge of a command -/

/-- Decoding the fields that an assembler emits for a command gives the command back (R39 to R44). -/
@[simp] theorem decodeFields_opcodeOf_dataOf (i : Instr) : decodeFields (opcodeOf i.mnemonic) (dataOf i) = i := by
  cases i with
  | byte b => exact congrArg Instr.byte (byteOperand_zext16 b)
  | nib n => exact congrArg Instr.nib (nibOperand_zext16 n)
  | load v => rfl
  | init => rfl

@[simp] theorem onInput_commandEdge (i : Instr) (s : State) : onInput (commandEdge i) s = exec i s := by
  rw [commandEdge_eq, onInput_edge, onEdge_command, decodeFields_opcodeOf_dataOf]

/-! ## Inputs that feed a message -/

/-- The inputs that feed bytes: a read or an idle edge feeds none, an accepted BYTE command feeds its operand. -/
theorem fedBytes_eq_some {e : HostInput} {bs : List Byte} (h : fedBytes e = some bs) :
    (bs = [] ∧ (e = .readOut ∨ ∃ op data, e = .edge ⟨false, false, op, data⟩)) ∨
    ∃ b op data, bs = [b] ∧ e = .edge ⟨false, true, op, data⟩ ∧ decodeFields op data = .byte b := by
  cases e with
  | readOut => exact .inl ⟨by simpa [fedBytes] using h.symm, .inl rfl⟩
  | badEdge => simp [fedBytes] at h
  | powerCycle => simp [fedBytes] at h
  | edge p =>
    obtain ⟨rst, valid, op, data⟩ := p
    cases rst with
    | true => simp [fedBytes] at h
    | false =>
      cases valid with
      | false => exact .inl ⟨by simpa [fedBytes] using h.symm, .inr ⟨op, data, rfl⟩⟩
      | true =>
        cases hd : decodeFields op data with
        | byte b => exact .inr ⟨b, op, data, by simpa [fedBytes, hd] using h.symm, rfl, hd⟩
        | nib n => simp [fedBytes, hd] at h
        | load v => simp [fedBytes, hd] at h
        | init => simp [fedBytes, hd] at h

/-- A message is fed by its first input and then by the others. -/
theorem fedMessage_cons_eq_some {e : HostInput} {es : List HostInput} {message : List Byte}
    (h : fedMessage (e :: es) = some message) :
    ∃ bs more, fedBytes e = some bs ∧ fedMessage es = some more ∧ message = bs ++ more := by
  cases he : fedBytes e with
  | none => simp [fedMessage, he] at h
  | some bs =>
    cases hes : fedMessage es with
    | none => simp [fedMessage, he, hes] at h
    | some more => exact ⟨bs, more, rfl, rfl, by simpa [fedMessage, he, hes] using h.symm⟩

theorem update_append (rom : Vector Word 16) (r : Word) (A B : List Byte) :
    update rom r (A ++ B) = update rom (update rom r A) B := by
  induction A generalizing r with
  | nil => rfl
  | cons b A ih => exact ih (byteStep rom r b)

/-- An input that feeds bytes folds them into a written `crc`, and does nothing else (R32, R53, R54). -/
theorem onInput_of_fedBytes {e : HostInput} {bs : List Byte} {s : State} {v : Word}
    (he : fedBytes e = some bs) (hc : s.crc = .holds v) :
    onInput e s = .next (s.writeCrc (update s.rom v bs)) := by
  rcases fedBytes_eq_some he with ⟨rfl, rfl | ⟨op, data, rfl⟩⟩ | ⟨b, op, data, rfl, rfl, hd⟩
  · rw [onInput_readOut, readOut_of_holds hc, update_nil, State.writeCrc_self hc]
  · rw [onInput_edge, onEdge_idle, update_nil, State.writeCrc_self hc]
  · rw [onInput_edge, onEdge_command, hd, exec_byte, foldCrc_of_holds hc, update_cons, update_nil]

/-- A run over inputs that feed a message leaves `Update(crc, message)` in a written `crc` (R57). -/
theorem runSteps_of_fedMessage {es rest : List HostInput} {message : List Byte} {s : State} {v : Word}
    (hm : fedMessage es = some message) (hc : s.crc = .holds v) (hi : s.inputs = es ++ rest) :
    runSteps es.length s = .next ⟨.holds (update s.rom v message), s.rom, rest⟩ := by
  induction es generalizing s v message with
  | nil =>
    obtain rfl : message = [] := by simpa [fedMessage] using hm.symm
    obtain ⟨crc, rom, inputs⟩ := s
    cases hc; cases hi
    rfl
  | cons e es ih =>
    obtain ⟨bs, more, he, hes, rfl⟩ := fedMessage_cons_eq_some hm
    have hstep := (step_cons hi).trans (onInput_of_fedBytes he hc)
    rw [List.length_cons, runSteps_of_next _ hstep, ih hes rfl rfl, update_append]
    rfl

/-! ## The table step is four bit steps -/

theorem bitSteps_add (j k : Nat) (c : Word) : bitSteps (j + k) c = bitSteps k (bitSteps j c) := by
  induction j generalizing c with
  | zero => rw [Nat.zero_add]; rfl
  | succ j ih => rw [Nat.add_right_comm]; exact ih (bitStep c)

theorem bitStep_of_msb_false {c : Word} (h : c.getLsbD 15 = false) : bitStep c = c <<< 1 := by
  rw [bitStep, h]; rfl

/-- While only zeros leave at the top, bit steps are a plain shift. -/
theorem bitSteps_eq_shiftLeft {k : Nat} {c : Word} (h : ∀ j, 16 - k ≤ j → c.getLsbD j = false) :
    bitSteps k c = c <<< k := by
  induction k generalizing c with
  | zero => exact (BitVec.shiftLeft_zero c).symm
  | succ k ih =>
    have hshift : ∀ j, 16 - k ≤ j → (c <<< 1).getLsbD j = false := by
      intro j hj
      by_cases hj0 : j = 0
      · simp [hj0]
      · simp [BitVec.getLsbD_shiftLeft, h (j - 1) (by omega)]
    calc bitSteps (k + 1) c = bitSteps k (bitStep c) := rfl
      _ = bitSteps k (c <<< 1) := by rw [bitStep_of_msb_false (h 15 (by omega))]
      _ = c <<< 1 <<< k := ih hshift
      _ = c <<< (k + 1) := by rw [← BitVec.shiftLeft_add, Nat.add_comm]

/-- The table of R17 is what the generator of R18 gives. -/
theorem romRead_romTable (i : Nibble) : romRead romTable i = gen i := by
  revert i; decide

/-- A register is its top nibble and the twelve bits below it (R49). -/
theorem topNibble_xor_low (r : Word) :
    (zext16 (topNibble r) <<< 12) ^^^ zext16 (r.extractLsb' 0 12) = r := by
  apply BitVec.eq_of_getLsbD_eq
  intro j hj
  by_cases h : j < 12
  · simp [zext16, hj, h]
  · simp [zext16, hj, h, show j - 12 < 4 by omega, show 12 + (j - 12) = j by omega]

/-- Four plain shifts drop the top nibble. -/
theorem low_shiftLeft_four (r : Word) : zext16 (r.extractLsb' 0 12) <<< 4 = r <<< 4 := by
  apply BitVec.eq_of_getLsbD_eq
  intro j hj
  by_cases h : j < 4
  · simp [h]
  · simp [zext16, hj, h, show j - 4 < 16 by omega, show j - 4 < 12 by omega]

theorem zext16_xor {w : Nat} (a b : BitVec w) : zext16 (a ^^^ b) = zext16 a ^^^ zext16 b :=
  BitVec.setWidth_xor

/-- On the ROM of R17 a nibble step is four bit steps on the register with the nibble at its top (R18, R49). By
linearity the top nibble gives the ROM entry, and the twelve bits below it are only shifted. -/
theorem nibStep_romTable (r : Word) (n : Nibble) :
    nibStep romTable r n = bitSteps 4 (r ^^^ (zext16 n <<< 12)) := by
  have hlow : bitSteps 4 (zext16 (r.extractLsb' 0 12)) = r <<< 4 := by
    rw [bitSteps_eq_shiftLeft, low_shiftLeft_four]
    intro j hj
    simp [zext16, show ¬ j < 12 by omega]
  have hsplit : r ^^^ (zext16 n <<< 12) =
      (zext16 (topNibble r ^^^ n) <<< 12) ^^^ zext16 (r.extractLsb' 0 12) := by
    conv_lhs => rw [← topNibble_xor_low r]
    rw [zext16_xor, BitVec.shiftLeft_xor_distrib]
    rw [BitVec.xor_assoc, BitVec.xor_assoc, BitVec.xor_comm (zext16 n <<< 12)]
  calc nibStep romTable r n = gen (topNibble r ^^^ n) ^^^ (r <<< 4) := by
        rw [nibStep, nibIndex_eq, romRead_romTable]
    _ = bitSteps 4 (r ^^^ (zext16 n <<< 12)) := by rw [hsplit, bitSteps_xor, hlow, gen]

/-- A byte at the top of the register is its two nibbles there, high nibble first (R10). -/
theorem zext16_byte_shiftLeft (b : Byte) :
    zext16 b <<< 8 = (zext16 (highNibble b) <<< 12) ^^^ (zext16 (lowNibble b) <<< 8) := by
  apply BitVec.eq_of_getLsbD_eq
  intro j hj
  by_cases h8 : j < 8
  · simp [h8, show j < 12 by omega]
  · by_cases h12 : j < 12
    · simp [zext16, hj, h8, h12, show j - 8 < 4 by omega]
    · simp [zext16, hj, h8, h12, show ¬ j - 8 < 4 by omega,
        show j - 12 < 4 by omega, show 4 + (j - 12) = j - 8 by omega]

/-- Four bit steps shift a nibble at bit 8 to the top. -/
theorem bitSteps_four_nibble (n : Nibble) : bitSteps 4 (zext16 n <<< 8) = zext16 n <<< 12 := by
  rw [bitSteps_eq_shiftLeft, ← BitVec.shiftLeft_add]
  intro j hj
  simp [zext16, BitVec.getLsbD_of_ge n (j - 8) (by omega)]

/-- R63: on the ROM of R17 a byte step is eight bit steps of the polynomial. -/
theorem byteStep_romTable (r : Word) (b : Byte) : byteStep romTable r b = bitSerialByte r b := by
  calc byteStep romTable r b
      = bitSteps 4 (bitSteps 4 (r ^^^ (zext16 (highNibble b) <<< 12)) ^^^ (zext16 (lowNibble b) <<< 12)) := by
        rw [byteStep, nibStep_romTable, nibStep_romTable]
    _ = bitSteps 4 (bitSteps 4 (r ^^^ (zext16 b <<< 8))) := by
        rw [← bitSteps_four_nibble (lowNibble b), ← bitSteps_xor, BitVec.xor_assoc, ← zext16_byte_shiftLeft]
    _ = bitSerialByte r b := (bitSteps_add 4 4 _).symm

/-- On the ROM of R17 `Update` is the bit-serial register after the message (R57, R63). -/
theorem update_romTable (r : Word) (message : List Byte) :
    update romTable r message = bitSerialRegister r message := by
  induction message generalizing r with
  | nil => rfl
  | cons b rest ih => rw [update_cons, bitSerialRegister_cons, byteStep_romTable, ih]

/-- The result is not reflected and no final XOR is applied (R5, R21). -/
@[simp] theorem finalValue_eq (r : Word) : finalValue r = r := BitVec.xor_zero

/-- On the ROM of R17 the checksum of R61 is the CRC that R1 names. -/
theorem checksum_romTable (message : List Byte) : checksum romTable message = bitSerialCrc message := by
  rw [checksum, update_romTable, bitSerialCrc, finalValue_eq]

/-! ## The obligation -/

/-- Settles O38: INIT writes 0x1D0F from every state, the inputs after it fold the message into it, and on the ROM of
R17 that fold is the bit-serial CRC. -/
theorem checksumIsTheBitSerialCrc : Obligations.ChecksumIsTheBitSerialCrc := by
  intro s es rest message hi hm
  have hinit := (step_cons hi).trans (onInput_commandEdge .init _)
  rw [exec_init] at hinit
  refine ⟨⟨.holds (checksum s.rom message), s.rom, rest⟩, ?_, rfl, ?_⟩
  · rw [Nat.add_comm, runSteps_of_next _ hinit]
    exact runSteps_of_fedMessage hm rfl rfl
  · intro hrom
    rw [crcOut_of_holds rfl, show s.rom = romTable from hrom, checksum_romTable]

end Sys2Proof.Machine
end

section
/-! PROOF. The state under commands and steps (R14 to R19, R30 to R32, R67, R83 to R85): when a command, an edge and an
input complete and when each of them stops, what they leave unchanged, and the ROM entries a command reads. -/

namespace Sys2Proof.Machine

/-! ## When a command completes -/

theorem CrcReg.isWritten_eq_true_iff {c : CrcReg} : c.isWritten = true ↔ ∃ v, c = .holds v := by
  cases c <;> simp [CrcReg.isWritten]

theorem readsCrc_iff {i : Instr} : readsCrc i = true ↔ (∃ b, i = .byte b) ∨ ∃ n, i = .nib n := by
  cases i <;> simp [readsCrc]

/-- BYTE and NIB are the commands with `op` 0b00 and 0b01 (R39). -/
theorem readsCrc_decodeFields_iff {op : OpField} {data : Word} :
    readsCrc (decodeFields op data) = true ↔ op = 0b00#2 ∨ op = 0b01#2 := by
  unfold decodeFields
  split_ifs with hbyte hnib hload
  · simp [readsCrc, hbyte]
  · simp [readsCrc, hnib]
  · simp [readsCrc, hload]
  · simp [readsCrc, hbyte, hnib]

/-- A command completes, and only writes `crc`, wherever it does not use an unwritten one (R55, R67). -/
theorem exec_completes {i : Instr} {s : State} (h : readsCrc i = true → s.crc.isWritten = true) :
    ∃ v, exec i s = .next (s.writeCrc v) := by
  cases i with
  | byte b =>
    obtain ⟨v, hc⟩ := CrcReg.isWritten_eq_true_iff.mp (h rfl)
    exact ⟨_, foldCrc_of_holds hc⟩
  | nib n =>
    obtain ⟨v, hc⟩ := CrcReg.isWritten_eq_true_iff.mp (h rfl)
    exact ⟨_, foldCrc_of_holds hc⟩
  | load v => exact ⟨v, rfl⟩
  | init => exact ⟨_, rfl⟩

/-- A command that uses an unwritten `crc` faults (R14, R85). -/
theorem exec_of_unwritten {i : Instr} {s : State} (hr : readsCrc i = true) (hc : s.crc = .unwritten) :
    exec i s = .fault .crcUnwritten := by
  obtain ⟨b, rfl⟩ | ⟨n, rfl⟩ := readsCrc_iff.mp hr
  · exact foldCrc_of_unwritten hc
  · exact foldCrc_of_unwritten hc

/-- Every command either faults on an unwritten `crc` that it reads, or completes. -/
theorem exec_fault_or_next (i : Instr) (s : State) :
    (readsCrc i = true ∧ s.crc = .unwritten ∧ exec i s = .fault .crcUnwritten) ∨
    ((readsCrc i = true → s.crc ≠ .unwritten) ∧ ∃ v, exec i s = .next (s.writeCrc v)) := by
  cases hc : s.crc with
  | holds v => exact .inr ⟨by simp, exec_completes fun _ => CrcReg.isWritten_eq_true_iff.mpr ⟨v, hc⟩⟩
  | unwritten =>
    cases hr : readsCrc i with
    | true => exact .inl ⟨rfl, rfl, exec_of_unwritten hr hc⟩
    | false => exact .inr ⟨by simp, exec_completes (by simp [hr])⟩

theorem exec_fault_iff {i : Instr} {s : State} {r : Fault} :
    exec i s = .fault r ↔ r = .crcUnwritten ∧ s.crc = .unwritten ∧ readsCrc i = true := by
  obtain ⟨hr, hc, he⟩ | ⟨hw, v, he⟩ := exec_fault_or_next i s
  · simp [he, hr, hc, eq_comm]
  · simp only [he, reduceCtorEq, false_iff]
    rintro ⟨-, hc, hr⟩
    exact hw hr hc

theorem exec_ne_refused (i : Instr) (s : State) (r : Refusal) : exec i s ≠ .refused r := by
  obtain ⟨-, -, he⟩ | ⟨-, v, he⟩ := exec_fault_or_next i s <;> simp [he]

/-! ## When an input stops the machine, and what it leaves unchanged -/

theorem readOut_fault_iff {s : State} {r : Fault} :
    readOut s = .fault r ↔ r = .crcOutUndefined ∧ s.crc = .unwritten := by
  cases hc : s.crc with
  | unwritten => simp [readOut_of_unwritten hc, eq_comm]
  | holds v => simp [readOut_of_holds hc]

theorem readOut_ne_refused (s : State) (r : Refusal) : readOut s ≠ .refused r := by
  cases hc : s.crc with
  | unwritten => simp [readOut_of_unwritten hc]
  | holds v => simp [readOut_of_holds hc]

/-- An edge faults only where it accepts a BYTE or a NIB while `crc` is unwritten (R86). -/
theorem onEdge_fault_iff {p : Ports} {s : State} {r : Fault} :
    onEdge p s = .fault r ↔ r = .crcUnwritten ∧ s.crc = .unwritten ∧
      ∃ op data, p = ⟨false, true, op, data⟩ ∧ (op = 0b00#2 ∨ op = 0b01#2) := by
  obtain ⟨rst, valid, op, data⟩ := p
  cases rst with
  | true => simp
  | false =>
    cases valid with
    | false => simp
    | true => simp [exec_fault_iff, readsCrc_decodeFields_iff]

theorem onEdge_ne_refused (p : Ports) (s : State) (r : Refusal) : onEdge p s ≠ .refused r := by
  obtain ⟨rst, valid, op, data⟩ := p
  cases rst with
  | true => simp
  | false =>
    cases valid with
    | false => simp
    | true => exact exec_ne_refused _ s r

theorem onInput_fault_iff {e : HostInput} {s : State} {r : Fault} :
    onInput e s = .fault r ↔ s.crc = .unwritten ∧
      ((r = .crcOutUndefined ∧ e = .readOut) ∨
       (r = .crcUnwritten ∧ ∃ op data, e = .edge ⟨false, true, op, data⟩ ∧ (op = 0b00#2 ∨ op = 0b01#2))) := by
  cases e with
  | edge p => simp [onEdge_fault_iff, and_left_comm]
  | badEdge => simp
  | readOut => simp [readOut_fault_iff, and_comm]
  | powerCycle => simp

theorem onInput_refused_iff {e : HostInput} {s : State} {r : Refusal} :
    onInput e s = .refused r ↔ r = .inputDutyBroken ∧ e = .badEdge := by
  cases e with
  | edge p => simp [onEdge_ne_refused]
  | badEdge => simp [eq_comm]
  | readOut => simp [readOut_ne_refused]
  | powerCycle => simp

/-- No input writes the ROM or touches the inputs after it (R15, R19). -/
theorem onInput_frame {e : HostInput} {s t : State} (h : onInput e s = .next t) :
    t.rom = s.rom ∧ t.inputs = s.inputs := by
  cases e with
  | edge p => obtain rfl | ⟨v, rfl⟩ := onEdge_next h <;> exact ⟨rfl, rfl⟩
  | badEdge => cases h
  | readOut =>
    cases hc : s.crc with
    | unwritten => rw [onInput_readOut, readOut_of_unwritten hc] at h; cases h
    | holds v => rw [onInput_readOut, readOut_of_holds hc] at h; cases h; exact ⟨rfl, rfl⟩
  | powerCycle => cases h; exact ⟨rfl, rfl⟩

/-! ## The host's duties, one input at a time -/

@[simp] theorem hostKeepsDuty_rst (w valid : Bool) (op : OpField) (data : Word) (rest : List HostInput) :
    hostKeepsDuty w (.edge ⟨true, valid, op, data⟩ :: rest) = hostKeepsDuty true rest := rfl

@[simp] theorem hostKeepsDuty_idle (w : Bool) (op : OpField) (data : Word) (rest : List HostInput) :
    hostKeepsDuty w (.edge ⟨false, false, op, data⟩ :: rest) = hostKeepsDuty w rest := rfl

/-- A command must not use an unwritten `crc`, and leaves it written (R83). -/
theorem hostKeepsDuty_command_iff {w : Bool} {op : OpField} {data : Word} {rest : List HostInput} :
    hostKeepsDuty w (.edge ⟨false, true, op, data⟩ :: rest) = true ↔
      (readsCrc (decodeFields op data) = true → w = true) ∧ hostKeepsDuty true rest = true := by
  cases hr : readsCrc (decodeFields op data) with
  | false => simp [hostKeepsDuty, hr]
  | true => cases w <;> simp [hostKeepsDuty, hr]

@[simp] theorem hostKeepsDuty_badEdge (w : Bool) (rest : List HostInput) :
    hostKeepsDuty w (.badEdge :: rest) = false := rfl

@[simp] theorem hostKeepsDuty_readOut (w : Bool) (rest : List HostInput) :
    hostKeepsDuty w (.readOut :: rest) = (w && hostKeepsDuty w rest) := rfl

@[simp] theorem hostKeepsDuty_powerCycle (w : Bool) (rest : List HostInput) :
    hostKeepsDuty w (.powerCycle :: rest) = hostKeepsDuty false rest := rfl

/-- An input within the host's duties completes, and from the `crc` it leaves the later inputs keep the duties. -/
theorem onInput_of_hostKeepsDuty {e : HostInput} {s : State}
    (h : hostKeepsDuty s.crc.isWritten (e :: s.inputs) = true) :
    ∃ t, onInput e s = .next t ∧ hostKeepsDuty t.crc.isWritten s.inputs = true := by
  cases e with
  | edge p =>
    obtain ⟨rst, valid, op, data⟩ := p
    cases rst with
    | true => exact ⟨resetEdge s, rfl, h⟩
    | false =>
      cases valid with
      | false => exact ⟨s, rfl, h⟩
      | true =>
        obtain ⟨hread, hrest⟩ := hostKeepsDuty_command_iff.mp h
        obtain ⟨v, hexec⟩ := exec_completes hread
        exact ⟨s.writeCrc v, hexec, hrest⟩
  | badEdge => cases h
  | readOut =>
    rw [hostKeepsDuty_readOut, Bool.and_eq_true] at h
    obtain ⟨hwritten, hrest⟩ := h
    obtain ⟨v, hc⟩ := CrcReg.isWritten_eq_true_iff.mp hwritten
    exact ⟨s, readOut_of_holds hc, hrest⟩
  | powerCycle => exact ⟨powerCycle s, rfl, h⟩

/-! ## The ROM entries that a command reads -/

/-- A nibble step depends on one ROM entry alone (R49). -/
theorem nibStep_congr {rom rom' : Vector Word 16} {r : Word} {n : Nibble}
    (h : romRead rom' (nibIndex r n) = romRead rom (nibIndex r n)) : nibStep rom' r n = nibStep rom r n := by
  rw [nibStep, nibStep, h]

/-- A byte step depends on the two ROM entries at its indices alone (R31). -/
theorem byteStep_congr {rom rom' : Vector Word 16} {r : Word} {b : Byte}
    (h : ∀ k ∈ romIndices rom r (.byte b), romRead rom' k = romRead rom k) :
    byteStep rom' r b = byteStep rom r b := by
  have hhigh : nibStep rom' r (highNibble b) = nibStep rom r (highNibble b) :=
    nibStep_congr (h _ (List.mem_cons_self ..))
  rw [byteStep, byteStep, hhigh]
  exact nibStep_congr (h _ (List.mem_cons_of_mem _ (List.mem_cons_self ..)))

/-! ## The obligations -/

/-- Settles O31: an input within the host's duties completes, the ROM is not written, and the later inputs keep the
duties from the `crc` that the step leaves. -/
theorem stepKeepsTheInvariant : Obligations.StepKeepsTheInvariant := by
  rintro s ⟨hrom, hduty⟩
  cases hi : s.inputs with
  | nil => exact ⟨s, step_nil hi, hrom, hduty⟩
  | cons e rest =>
    rw [hi] at hduty
    obtain ⟨t, ht, hrest⟩ := onInput_of_hostKeepsDuty (s := { s with inputs := rest }) hduty
    obtain ⟨hromt, hinputs⟩ := onInput_frame ht
    refine ⟨t, (step_cons hi).trans ht, hromt.trans hrom, ?_⟩
    rw [hinputs]
    exact hrest

/-- Settles O14: a command's result is a function of `crc`, its operand and the ROM entries at its own indices. -/
theorem commandsReadOnlyTheirRomEntries : Obligations.CommandsReadOnlyTheirRomEntries := by
  refine ⟨fun i s u t r hs hu hrom hexec => ?_, fun rom r b n v => ⟨rfl, rfl, rfl, rfl⟩⟩
  cases i with
  | byte b =>
    rw [exec_byte, foldCrc_of_holds hs] at hexec
    cases hexec
    rw [exec_byte, foldCrc_of_holds hu, byteStep_congr hrom]
    rfl
  | nib n =>
    rw [exec_nib, foldCrc_of_holds hs] at hexec
    cases hexec
    rw [exec_nib, foldCrc_of_holds hu, nibStep_congr (hrom _ (List.mem_cons_self ..))]
    rfl
  | load v => cases hexec; rfl
  | init => cases hexec; rfl

/-- Settles O15: a command stops only where it reads an unwritten `crc`. -/
theorem commandFaultsExactlyWhenCrcUnwritten : Obligations.CommandFaultsExactlyWhenCrcUnwritten := by
  intro i s
  refine ⟨fun r => ?_, exec_ne_refused i s⟩
  rw [exec_fault_iff, readsCrc_iff]

/-- Settles O17: a step is one input on the state without it, and no input writes the ROM. -/
theorem noStepWritesTheRom : Obligations.NoStepWritesTheRom := by
  intro s t h
  cases hi : s.inputs with
  | nil => rw [step_nil hi] at h; cases h; exact ⟨rfl, hi⟩
  | cons e rest => rw [step_cons hi] at h; exact onInput_frame h

/-- Settles O30: a step without input completes, and a step with one stops exactly where that input does. -/
theorem stepStopsExactlyOnBrokenDuties : Obligations.StepStopsExactlyOnBrokenDuties := by
  intro s
  cases hi : s.inputs with
  | nil => simp [step_nil hi]
  | cons e rest => simp [step_cons hi, onInput_refused_iff, onInput_fault_iff]

/-- Settles O16: the generator's closed forms are checked at each of the 16 indices. -/
theorem romEntriesAreGenerated : Obligations.RomEntriesAreGenerated := by
  have hproduct : ∀ i : Nibble, gen i = zext16 i * 0x1021#16 := by decide
  have hxor : ∀ i : Nibble, gen i = (zext16 i <<< 12) ^^^ (zext16 i <<< 5) ^^^ zext16 i := by decide
  exact ⟨fun c => rfl, fun i => ⟨rfl, romRead_romTable i, hproduct i, hxor i⟩⟩

/-- Settles O27: the step is the read of `crc_out` on the state without that input. -/
theorem readingCrcOutChangesNothing : Obligations.ReadingCrcOutChangesNothing := by
  intro s rest hi
  rw [step_cons hi, onInput_readOut]
  exact ⟨fun v hc => ⟨crcOut_of_holds hc, readOut_of_holds hc⟩, fun hc => readOut_of_unwritten hc⟩

end Sys2Proof.Machine
end

section
/-! PROOF. Commands on consecutive edges (R34, R88): the value each command leaves in a written `crc`, and the fold of
those values that a run of commands leaves there. -/

namespace Sys2Proof.Machine

/-! ## The value a command leaves in `crc` -/

/-- The value that a command leaves in `crc` when `crc` held `r` (R50 to R53). -/
def commandEffect (rom : Vector Word 16) (r : Word) : Instr → Word
  | .byte b => byteStep rom r b
  | .nib n => nibStep rom r n
  | .load v => v
  | .init => Config.crcInit

/-- From a written `crc` every command completes, and all it does is write its effect. -/
theorem exec_of_holds (i : Instr) {s : State} {v : Word} (hc : s.crc = .holds v) :
    exec i s = .next (s.writeCrc (commandEffect s.rom v i)) := by
  cases i with
  | byte b => exact foldCrc_of_holds hc
  | nib n => exact foldCrc_of_holds hc
  | load x => rfl
  | init => rfl

/-! ## A run of commands -/

/-- A step at a command's edge takes that edge and writes the command's effect on a written `crc` (R86). -/
theorem step_commandEdge_of_holds {i : Instr} {s : State} {v : Word} {es : List HostInput}
    (hc : s.crc = .holds v) (hi : s.inputs = commandEdge i :: es) :
    step s = .next ⟨.holds (commandEffect s.rom v i), s.rom, es⟩ := by
  rw [step_cons hi, onInput_commandEdge]
  exact exec_of_holds i hc

/-- A run over the edges of commands leaves the left fold of their effects in a written `crc`: each command starts
from the value that the one before it left (R88). -/
theorem runSteps_commandEdges {is : List Instr} {s : State} {v : Word} {rest : List HostInput}
    (hc : s.crc = .holds v) (hi : s.inputs = is.map commandEdge ++ rest) :
    runSteps is.length s = .next ⟨.holds (is.foldl (commandEffect s.rom) v), s.rom, rest⟩ := by
  induction is generalizing s v with
  | nil =>
    obtain ⟨crc, rom, inputs⟩ := s
    cases hc; cases hi
    rfl
  | cons i is ih =>
    rw [List.length_cons, runSteps_of_next _ (step_commandEdge_of_holds hc hi)]
    exact ih rfl rfl

/-! ## The obligation -/

/-- Settles O34: by induction on the commands, with each command's effect written out as R50 to R53 give it. -/
theorem consecutiveCommandsTakeEffectInOrder : Obligations.ConsecutiveCommandsTakeEffectInOrder := by
  intro is s v rest hc hi
  rw [runSteps_commandEdges hc hi]
  refine congrArg (fun r => Host.Outcome.next (State.mk (.holds r) s.rom rest)) (List.foldl_ext _ _ _ fun r i _ => ?_)
  cases i <;> rfl

end Sys2Proof.Machine
end

section
/-! PROOF. The decoder and the encoder (R37 to R45): a command word is its two fields, `op` selects the row of the opcode
map, decoding undoes encoding, and encoding clears exactly the data bits that the command ignores. -/

namespace Sys2Proof.Machine

/-! ## A command word and its fields -/

/-- A command word is {op, data} (R37, R38). -/
@[simp] theorem mkCommand_cmdOpOf_cmdDataOf (c : Command) : mkCommand (cmdOpOf c) (cmdDataOf c) = c :=
  BitVec.extractLsb'_append_extractLsb' (w := 2) (len := 16)

/-- A mask that keeps `op` acts on the data field alone. -/
theorem mkCommand_and_dataMask (op : OpField) (data mask : Word) :
    mkCommand op data &&& mkCommand 0b11#2 mask = mkCommand op (data &&& mask) := by
  change (op ++ data) &&& (0b11#2 ++ mask) = op ++ (data &&& mask)
  rw [BitVec.and_append]
  congr 1
  exact BitVec.and_allOnes

/-- Under the mask of the opcode map a word is its `op` and zeros (R39). -/
theorem and_opMask (c : Command) : c &&& 0x30000#18 = mkCommand (cmdOpOf c) 0x0000#16 := by
  conv_lhs => rw [← mkCommand_cmdOpOf_cmdDataOf c]
  exact Laws.OpcodeRowMatches.mkCommand_and_mask _ _

theorem and_opMask_eq_iff {c : Command} {op : OpField} :
    c &&& 0x30000#18 = mkCommand op 0x0000#16 ↔ cmdOpOf c = op := by
  rw [and_opMask]
  constructor
  · intro h
    simpa only [cmdOpOf_mkCommand] using congrArg cmdOpOf h
  · rintro rfl; rfl

/-- All four values of `op` are assigned (R39). -/
theorem opField_cases (op : OpField) : op = 0b00#2 ∨ op = 0b01#2 ∨ op = 0b10#2 ∨ op = 0b11#2 := by
  revert op; decide

/-! ## What `op` selects -/

@[simp] theorem decodeFields_op_byte (data : Word) : decodeFields 0b00#2 data = .byte (byteOperand data) := rfl
@[simp] theorem decodeFields_op_nib (data : Word) : decodeFields 0b01#2 data = .nib (nibOperand data) := rfl
@[simp] theorem decodeFields_op_load (data : Word) : decodeFields 0b10#2 data = .load data := rfl
@[simp] theorem decodeFields_op_init (data : Word) : decodeFields 0b11#2 data = .init := rfl

theorem byteOperand_cmdDataOf (c : Command) : byteOperand (cmdDataOf c) = c.extractLsb' 0 8 :=
  BitVec.extractLsb'_extractLsb'_of_le (by omega)

theorem nibOperand_cmdDataOf (c : Command) : nibOperand (cmdDataOf c) = c.extractLsb' 0 4 :=
  BitVec.extractLsb'_extractLsb'_of_le (by omega)

theorem decodeCommand_of_op_byte {c : Command} (h : cmdOpOf c = 0b00#2) :
    decodeCommand c = .byte (c.extractLsb' 0 8) := by
  rw [decodeCommand, h, decodeFields_op_byte, byteOperand_cmdDataOf]

theorem decodeCommand_of_op_nib {c : Command} (h : cmdOpOf c = 0b01#2) :
    decodeCommand c = .nib (c.extractLsb' 0 4) := by
  rw [decodeCommand, h, decodeFields_op_nib, nibOperand_cmdDataOf]

theorem decodeCommand_of_op_load {c : Command} (h : cmdOpOf c = 0b10#2) :
    decodeCommand c = .load (c.extractLsb' 0 16) := by
  rw [decodeCommand, h, decodeFields_op_load]

theorem decodeCommand_of_op_init {c : Command} (h : cmdOpOf c = 0b11#2) : decodeCommand c = .init := by
  rw [decodeCommand, h, decodeFields_op_init]

/-- The command that fields decode to is the one whose `op` they carry. -/
@[simp] theorem opcodeOf_decodeFields (op : OpField) (data : Word) :
    opcodeOf (decodeFields op data).mnemonic = op := by
  rcases opField_cases op with rfl | rfl | rfl | rfl <;> rfl

@[simp] theorem mnemonic_decodeFields_opcodeOf (m : Mnemonic) (data : Word) :
    (decodeFields (opcodeOf m) data).mnemonic = m := by
  cases m <;> rfl

/-! ## The rows of the opcode map -/

/-- The row of a mnemonic: its `op` over the mask of both `op` bits (R39). -/
def opcodeRowOf (m : Mnemonic) : OpcodeRow := ⟨m, mkCommand (opcodeOf m) 0x0000#16, 0x30000#18⟩

/-- The opcode map is the rows of the four mnemonics. -/
theorem mem_opcodeRows_iff {row : OpcodeRow} : row ∈ opcodeRows ↔ ∃ m, row = opcodeRowOf m := by
  constructor
  · intro h
    simp only [opcodeRows, List.mem_cons, List.not_mem_nil, or_false] at h
    rcases h with rfl | rfl | rfl | rfl
    exacts [⟨.byte, rfl⟩, ⟨.nib, rfl⟩, ⟨.load, rfl⟩, ⟨.init, rfl⟩]
  · rintro ⟨m, rfl⟩
    cases m <;> decide

/-- A word matches the row of the command it decodes to, and no other. -/
theorem opcodeRowOf_matchesWord_iff {m : Mnemonic} {c : Command} :
    (opcodeRowOf m).matchesWord c = true ↔ (decodeCommand c).mnemonic = m := by
  have hrow : (opcodeRowOf m).matchesWord c = true ↔ cmdOpOf c = opcodeOf m := by
    rw [OpcodeRow.matchesWord, beq_iff_eq]
    exact and_opMask_eq_iff
  rw [hrow, decodeCommand]
  constructor
  · intro h
    rw [h, mnemonic_decodeFields_opcodeOf]
  · rintro rfl
    exact (opcodeOf_decodeFields _ _).symm

/-! ## Decoding after encoding, and encoding after decoding -/

@[simp] theorem decodeCommand_encode (i : Instr) : decodeCommand (encode i) = i := by
  rw [encode, decodeCommand_mkCommand, decodeFields_opcodeOf_dataOf]

theorem decodeWord_of_lt {n : Nat} (h : n < 2 ^ 18) : decodeWord n = .ok (decodeCommand (BitVec.ofNat 18 n)) := by
  rw [decodeWord, commandOfNat_of_lt h]

theorem decodeWord_of_le {n : Nat} (h : 2 ^ 18 ≤ n) : decodeWord n = .error .notACommandWord := by
  rw [decodeWord, commandOfNat_of_le h]

/-- A number read from a command word decodes as that word. -/
@[simp] theorem decodeWord_toNat (c : Command) : decodeWord c.toNat = .ok (decodeCommand c) := by
  rw [decodeWord_of_lt c.isLt, BitVec.ofNat_toNat, BitVec.setWidth_eq]

/-- Taking the low bits of a data field and extending them again clears the others. -/
theorem zext16_extractLsb'_zero (w : Nat) (data : Word) :
    zext16 (data.extractLsb' 0 w) = data &&& BitVec.ofNat 16 (2 ^ w - 1) := by
  apply BitVec.eq_of_getLsbD_eq
  intro i hi
  rw [zext16, BitVec.getLsbD_setWidth, BitVec.getLsbD_extractLsb', BitVec.getLsbD_and, BitVec.getLsbD_ofNat,
    Nat.testBit_two_pow_sub_one]
  simp [hi, Bool.and_comm]

/-- Encoding the command that fields decode to keeps the bits that the command uses (R44). -/
theorem encode_decodeFields (op : OpField) (data : Word) :
    encode (decodeFields op data) = mkCommand op data &&& usedMask op := by
  rcases opField_cases op with rfl | rfl | rfl | rfl
  · rw [show usedMask 0b00#2 = mkCommand 0b11#2 0x00FF#16 by decide, mkCommand_and_dataMask, encode, decodeFields_op_byte]
    exact congrArg (mkCommand 0b00#2) (zext16_extractLsb'_zero 8 data)
  · rw [show usedMask 0b01#2 = mkCommand 0b11#2 0x000F#16 by decide, mkCommand_and_dataMask, encode, decodeFields_op_nib]
    exact congrArg (mkCommand 0b01#2) (zext16_extractLsb'_zero 4 data)
  · rw [show usedMask 0b10#2 = BitVec.allOnes 18 by decide, BitVec.and_allOnes]
    rfl
  · rw [show usedMask 0b11#2 = mkCommand 0b11#2 0x0000#16 by decide, mkCommand_and_dataMask, BitVec.and_zero]
    rfl

/-- Encoding what a word decodes to clears its ignored data bits (R44). -/
theorem encode_decodeCommand (c : Command) : encode (decodeCommand c) = canonicalWord c := by
  rw [decodeCommand, encode_decodeFields, mkCommand_cmdOpOf_cmdDataOf, canonicalWord]

/-! ## Ignored data bits -/

/-- Fields with one `op` that agree on the bits it uses decode to one command (R44). -/
theorem decodeFields_congr {op : OpField} {d e : Word}
    (hbyte : op = 0b00#2 → byteOperand d = byteOperand e) (hnib : op = 0b01#2 → nibOperand d = nibOperand e)
    (hload : op = 0b10#2 → d = e) : decodeFields op d = decodeFields op e := by
  rcases opField_cases op with rfl | rfl | rfl | rfl
  · exact congrArg Instr.byte (hbyte rfl)
  · exact congrArg Instr.nib (hnib rfl)
  · exact congrArg Instr.load (hload rfl)
  · rfl

/-- An edge uses its data through the command they decode to alone (R86). -/
theorem onEdge_congr {op : OpField} {d e : Word} (h : decodeFields op d = decodeFields op e) (rst valid : Bool)
    (s : State) : onEdge ⟨rst, valid, op, d⟩ s = onEdge ⟨rst, valid, op, e⟩ s := by
  rw [onEdge, onEdge, h]

/-! ## The obligations -/

/-- Settles O2: the fields of the encoded word decode to the command, and the word's number is that word. -/
theorem decodeEncodeRoundTrip : Obligations.DecodeEncodeRoundTrip := by
  intro i
  exact ⟨decodeCommand_encode i, by rw [decodeWord_toNat, decodeCommand_encode]⟩

/-- Settles O1: the mask of every row leaves `op`, so a word matches the row of the command it decodes to
and no other. -/
theorem opcodeMapSelectsByOp : Obligations.OpcodeMapSelectsByOp := by
  refine ⟨fun c => ⟨fun h => decodeCommand_of_op_byte (and_opMask_eq_iff.mp h),
    fun h => decodeCommand_of_op_nib (and_opMask_eq_iff.mp h),
    fun h => decodeCommand_of_op_load (and_opMask_eq_iff.mp h),
    fun h => decodeCommand_of_op_init (and_opMask_eq_iff.mp h)⟩, fun c => ?_⟩
  refine ⟨opcodeRowOf (decodeCommand c).mnemonic, mem_opcodeRows_iff.mpr ⟨_, rfl⟩,
    opcodeRowOf_matchesWord_iff.mpr rfl, rfl, fun row' hmem hmatch => ?_⟩
  obtain ⟨m, rfl⟩ := mem_opcodeRows_iff.mp hmem
  rw [opcodeRowOf_matchesWord_iff.mp hmatch]

/-- Settles O3: the used bits of R44, read off for each value of `op`. -/
theorem encodeDecodeClearsIgnoredBits : Obligations.EncodeDecodeClearsIgnoredBits := by
  intro c
  have hused : ∀ op, cmdOpOf c = op → encode (decodeCommand c) = c &&& usedMask op := by
    rintro op rfl
    exact encode_decodeCommand c
  exact ⟨hused 0b00#2, hused 0b01#2, fun h => (hused 0b10#2 h).trans BitVec.and_allOnes, hused 0b11#2⟩

/-- Settles O6: each value of `op` names a command, a command completes from a written `crc`, and an edge sees its data
through the command alone. -/
theorem everyWordIsLegalAndUnusedBitsAreIgnored : Obligations.EveryWordIsLegalAndUnusedBitsAreIgnored := by
  refine ⟨fun c => ?_, fun c s v hc => ⟨_, exec_of_holds (decodeCommand c) hc⟩,
    fun op d e rst valid s hbyte hnib hload => onEdge_congr (decodeFields_congr hbyte hnib hload) rst valid s⟩
  cases decodeCommand c with
  | byte b => exact .inl ⟨b, rfl⟩
  | nib n => exact .inr (.inl ⟨n, rfl⟩)
  | load v => exact .inr (.inr (.inl ⟨v, rfl⟩))
  | init => exact .inr (.inr (.inr rfl))

/-- Settles O4: a number is a command word exactly when it is below 2^18. -/
theorem decodingIsTotalOnCommandWords : Obligations.DecodingIsTotalOnCommandWords := by
  intro n
  exact ⟨fun h => ⟨_, decodeWord_of_lt h⟩, decodeWord_of_le⟩

/-- Settles O23: an accepting edge runs the command of its fields, which are those of {op, data}. -/
theorem stepRunsTheAcceptedCommand : Obligations.StepRunsTheAcceptedCommand := by
  intro s op data rest hi
  rw [step_cons hi, onInput_edge, onEdge_command]
  exact congrArg (fun i => exec i { s with inputs := rest }) (decodeCommand_mkCommand op data).symm

end Sys2Proof.Machine
end

section
/-! PROOF. The assembler (R47, R48): the edge of each plain line whose immediate fits, the lines and edges of each
pseudo-instruction, and what a run over those edges leaves in `crc`. -/

namespace Sys2Proof.Machine

/-! ## Operands that fit -/

@[simp] theorem fitsField_iff {w imm : Nat} : fitsField w imm = true ↔ imm < 2 ^ w := decide_eq_true_iff

theorem wellFormed_bytes_iff {bs : List Nat} :
    (AsmLine.bytes bs).wellFormed = true ↔ ∀ b ∈ bs, b < 0x100 := by
  simp [AsmLine.wellFormed]

theorem wellFormed_str_iff {text : List Char} :
    (AsmLine.str text).wellFormed = true ↔ ∀ c ∈ text, c.toNat < 128 := by
  simp [AsmLine.wellFormed, isAscii]

theorem wellFormed_update_iff {r : Nat} {bs : List Nat} :
    (AsmLine.update r bs).wellFormed = true ↔ r < 0x10000 ∧ ∀ b ∈ bs, b < 0x100 := by
  simp [AsmLine.wellFormed]

theorem wellFormed_crc_iff {bs : List Nat} :
    (AsmLine.crc bs).wellFormed = true ↔ ∀ b ∈ bs, b < 0x100 := wellFormed_bytes_iff

theorem wellFormed_byten_iff {b : Nat} : (AsmLine.byten b).wellFormed = true ↔ b < 0x100 := fitsField_iff

/-- An immediate that fits its field is the same number in the data field (R44, R47). -/
theorem zext16_ofNat {w n : Nat} (h : n < 2 ^ w) : zext16 (BitVec.ofNat w n) = BitVec.ofNat 16 n := by
  apply BitVec.eq_of_toNat_eq
  simp [zext16, Nat.mod_eq_of_lt h]

/-! ## Plain lines -/

theorem lineInput_load (imm : Nat) :
    lineInput (.load imm) = .edge ⟨false, true, 0b10#2, BitVec.ofNat 16 imm⟩ := commandEdge_eq _

theorem lineInput_nib {imm : Nat} (h : imm < 0x10) :
    lineInput (.nib imm) = .edge ⟨false, true, 0b01#2, BitVec.ofNat 16 imm⟩ := by
  rw [← zext16_ofNat (w := 4) h]
  exact commandEdge_eq _

theorem lineInput_byte {imm : Nat} (h : imm < 0x100) :
    lineInput (.byte imm) = .edge ⟨false, true, 0b00#2, BitVec.ofNat 16 imm⟩ := by
  rw [← zext16_ofNat (w := 8) h]
  exact commandEdge_eq _

/-- A plain line whose immediate has a field of `w` bits assembles exactly when the immediate fits it (R47). -/
theorem assembleLine_core_of_field {l : CoreLine} {w imm : Nat} {e : HostInput}
    (hwf : l.wellFormed = fitsField w imm) (he : imm < 2 ^ w → lineInput l = e) :
    assembleLine (.core l) = if imm < 2 ^ w then .ok [e] else .error .doesNotFit := by
  by_cases h : imm < 2 ^ w
  · rw [if_pos h, ← he h]
    exact assembleLine_of_wellFormed (l := .core l) (hwf.trans (fitsField_iff.mpr h))
  · rw [if_neg h]
    exact assembleLine_of_not_wellFormed (l := .core l) (hwf.trans (decide_eq_false h))

/-! ## The expansions -/

/-- STR is BYTES over the ASCII codes (R48). -/
theorem expandLine_str (text : List Char) :
    expandLine (.str text) = expandLine (.bytes (text.map Char.toNat)) := by
  simp [expandLine]

/-- The edges of BYTE lines carry their bytes in order (R47). -/
theorem map_lineInput_byte {bs : List Nat} (h : ∀ b ∈ bs, b < 0x100) :
    (bs.map CoreLine.byte).map lineInput =
      bs.map fun b => .edge ⟨false, true, 0b00#2, BitVec.ofNat 16 b⟩ := by
  rw [List.map_map]
  exact List.map_congr_left fun b hb => lineInput_byte (h b hb)

/-- The same edges, as the edges of BYTE commands. -/
theorem map_lineInput_byte_eq_commandEdges (bs : List Nat) :
    (bs.map CoreLine.byte).map lineInput = ((bs.map (BitVec.ofNat 8)).map Instr.byte).map commandEdge := by
  rw [List.map_map, List.map_map, List.map_map]
  rfl

theorem ofNat_div_eq_highNibble (b : Nat) : BitVec.ofNat 4 (b / 16) = highNibble (BitVec.ofNat 8 b) := by
  apply BitVec.eq_of_toNat_eq
  simp only [BitVec.toNat_ofNat, BitVec.extractLsb'_toNat, Nat.shiftRight_eq_div_pow]
  omega

theorem ofNat_mod_eq_lowNibble (b : Nat) : BitVec.ofNat 4 (b % 16) = lowNibble (BitVec.ofNat 8 b) := by
  apply BitVec.eq_of_toNat_eq
  simp only [BitVec.toNat_ofNat, BitVec.extractLsb'_toNat, Nat.shiftRight_zero]
  omega

/-- BYTEN b is NIB b[7:4], then NIB b[3:0] (R48). -/
theorem map_lineInput_expandLine_byten (b : Nat) :
    (expandLine (.byten b)).map lineInput =
      [Instr.nib (highNibble (BitVec.ofNat 8 b)), .nib (lowNibble (BitVec.ofNat 8 b))].map commandEdge := by
  rw [← ofNat_div_eq_highNibble, ← ofNat_mod_eq_lowNibble]
  rfl

/-! ## What the edges of BYTE lines do -/

/-- The fold of BYTE commands is `Update` (R57). -/
theorem foldl_commandEffect_byte (rom : Vector Word 16) (r : Word) (bs : List Byte) :
    (bs.map Instr.byte).foldl (commandEffect rom) r = update rom r bs := by
  induction bs generalizing r with
  | nil => rfl
  | cons b bs ih => exact ih (byteStep rom r b)

/-- The edges of BYTE lines fold their bytes into a written `crc`, one edge each. -/
theorem runSteps_byteLines {bs : List Nat} {es rest : List HostInput} {s : State} {v : Word}
    (hes : es = (bs.map CoreLine.byte).map lineInput) (hc : s.crc = .holds v) (hi : s.inputs = es ++ rest) :
    es.length = bs.length ∧
      runSteps es.length s = .next ⟨.holds (update s.rom v (bs.map (BitVec.ofNat 8))), s.rom, rest⟩ := by
  have hlen : es.length = bs.length := by rw [hes, List.length_map, List.length_map]
  rw [hes, map_lineInput_byte_eq_commandEdges] at hi
  have hrun := runSteps_commandEdges hc hi
  rw [foldl_commandEffect_byte, List.length_map, List.length_map] at hrun
  exact ⟨hlen, hlen ▸ hrun⟩

/-- After the edge of a command that writes `v` from every state (LOAD, INIT) they fold their bytes into `v`. -/
theorem runSteps_seed_byteLines {i : Instr} {bs : List Nat} {es rest : List HostInput} {s : State} {v : Word}
    (hseed : ∀ u, exec i u = .next (u.writeCrc v))
    (hes : es = commandEdge i :: (bs.map CoreLine.byte).map lineInput) (hi : s.inputs = es ++ rest) :
    es.length = bs.length + 1 ∧
      runSteps es.length s = .next ⟨.holds (update s.rom v (bs.map (BitVec.ofNat 8))), s.rom, rest⟩ := by
  subst hes
  have hstep := (step_cons hi).trans ((onInput_commandEdge i _).trans (hseed _))
  obtain ⟨hlen, hrun⟩ := runSteps_byteLines (bs := bs) (rest := rest)
    (s := State.writeCrc { s with inputs := _ } v) rfl rfl rfl
  rw [List.length_cons, runSteps_of_next _ hstep]
  exact ⟨congrArg (· + 1) hlen, hrun⟩

/-! ## The obligations -/

/-- Settles O41: a line without an immediate is its edge, and a line with one is its edge when the immediate fits. -/
theorem plainLinesAssemble : Obligations.PlainLinesAssemble :=
  ⟨congrArg (fun e => Except.ok [e]) (commandEdge_eq .init),
    fun imm => assembleLine_core_of_field (w := 16) rfl fun _ => lineInput_load imm,
    fun _ => assembleLine_core_of_field (w := 4) rfl lineInput_nib,
    fun _ => assembleLine_core_of_field (w := 8) rfl lineInput_byte,
    rfl, rfl⟩

/-- Settles O44: the operands fit, so each line is the edges of its expansion. -/
theorem pseudoInstructionsExpandToCommands : Obligations.PseudoInstructionsExpandToCommands := by
  have hbytes : ∀ bs : List Nat, (∀ b ∈ bs, b < 0x100) →
      assembleLine (.bytes bs) = .ok (bs.map fun b => .edge ⟨false, true, 0b00#2, BitVec.ofNat 16 b⟩) := by
    intro bs hbs
    rw [assembleLine_of_wellFormed (wellFormed_bytes_iff.mpr hbs), ← map_lineInput_byte hbs]
    rfl
  refine ⟨hbytes, fun text htext => ?_, fun r bs hr hbs => ?_, fun bs hbs => ?_, fun b => ?_⟩
  · have hcodes : ∀ b ∈ text.map Char.toNat, b < 0x100 := by
      intro b hb
      obtain ⟨c, hc, rfl⟩ := List.mem_map.mp hb
      exact (htext c hc).trans (by decide)
    have hstr : assembleLine (.str text) = assembleLine (.bytes (text.map Char.toNat)) := by
      rw [assembleLine_of_wellFormed (wellFormed_str_iff.mpr htext), expandLine_str,
        assembleLine_of_wellFormed (wellFormed_bytes_iff.mpr hcodes)]
    refine ⟨?_, hstr⟩
    rw [hstr, hbytes _ hcodes, List.map_map]
    rfl
  · rw [assembleLine_of_wellFormed (wellFormed_update_iff.mpr ⟨hr, hbs⟩), ← map_lineInput_byte hbs, ← lineInput_load]
    rfl
  · rw [assembleLine_of_wellFormed (wellFormed_crc_iff.mpr hbs), ← map_lineInput_byte hbs]
    exact congrArg (fun e => Except.ok (e :: _)) (commandEdge_eq .init)
  · rw [assembleLine_of_wellFormed (wellFormed_byten_iff.mpr b.isLt), map_lineInput_expandLine_byten, BitVec.ofNat_toNat,
      BitVec.setWidth_eq, List.map_cons, List.map_cons, List.map_nil, commandEdge_eq, commandEdge_eq]
    rfl

/-- Settles O42: a line that assembles is the edges of its expansion, and a run over them is a fold of its commands. -/
theorem pseudoInstructionsRun : Obligations.PseudoInstructionsRun := by
  refine ⟨fun s v bs es rest hasm hc hi => ?_, fun s v text es rest hasm hc hi => ?_,
    fun s r bs es rest hasm hi => ?_, fun s bs es rest hasm hi => ?_, fun s b v es rest hasm hc hi => ?_⟩
  all_goals obtain ⟨-, hes⟩ := assembleLine_ok hasm
  · exact runSteps_byteLines hes hc hi
  · rw [expandLine_str] at hes
    obtain ⟨hlen, hrun⟩ := runSteps_byteLines hes hc hi
    rw [List.map_map] at hrun
    exact ⟨hlen.trans (List.length_map _), hrun⟩
  · exact runSteps_seed_byteLines (exec_load _) hes hi
  · exact runSteps_seed_byteLines exec_init hes hi
  · rw [hes, map_lineInput_expandLine_byten] at hi
    exact ⟨congrArg List.length hes, runSteps_commandEdges hc hi⟩

end Sys2Proof.Machine
end

section
/-! PROOF. The CRC operations (R49 to R63): the forms of the nibble step, the word and the effect of each command, what
its result depends on, and messages fed in one part or in several. -/

namespace Sys2Proof.Machine

/-! ## The nibble step and the byte step -/

/-- The shift of R49 puts four zeros below `r[11:0]`. -/
theorem shiftLeft_four_eq_append (r : Word) : r <<< 4 = r.extractLsb' 0 12 ++ 0b0000#4 :=
  BitVec.shiftLeft_eq_concat_of_lt (by decide)

/-- A 16-bit result is the same over 16 bits and truncated from unbounded width (R7, R49). -/
theorem trunc16_xor_shiftLeft (t r : Word) (k : Nat) : trunc16 (t.toNat ^^^ (r.toNat <<< k)) = t ^^^ (r <<< k) := by
  rw [trunc16, BitVec.ofNat_xor, BitVec.ofNat_toNat, BitVec.setWidth_eq]
  rfl

/-- A nibble that equals the top nibble of the register selects entry 0 (R52). -/
theorem nibStep_topNibble (rom : Vector Word 16) (v : Word) :
    nibStep rom v (topNibble v) = romRead rom 0x0#4 ^^^ (v <<< 4) := by
  rw [nibStep, nibIndex_eq, BitVec.xor_self]

/-- From a zero register the nibble is the index, and the shift adds nothing (R52). -/
theorem nibStep_zero (rom : Vector Word 16) (n : Nibble) : nibStep rom 0x0000#16 n = romRead rom n := by
  rw [nibStep, nibIndex_eq, show topNibble 0x0000#16 = 0#4 by decide, BitVec.zero_xor, BitVec.zero_shiftLeft,
    BitVec.xor_zero]

/-! ## The word of a command -/

/-- The canonical word of a command is `(op << 16) | data` (R37, R47). -/
theorem encode_eq_or {i : Instr} {opWord : Command} (h : mkCommand (opcodeOf i.mnemonic) 0x0000#16 = opWord) :
    encode i = opWord ||| (dataOf i).setWidth 18 := by
  have hdata : (dataOf i).setWidth 18 = 0b00#2 ++ dataOf i :=
    BitVec.setWidth_eq_append (by decide)
  rw [← h, hdata]
  change _ = (opcodeOf i.mnemonic ++ 0x0000#16) ||| (0b00#2 ++ dataOf i)
  rw [BitVec.or_append, BitVec.or_zero, BitVec.zero_or]
  rfl

/-- An operand reaches the 18-bit word by zero extension, with or without the data field in between. -/
theorem setWidth_zext16 {w : Nat} (h : w ≤ 16) (x : BitVec w) : (zext16 x).setWidth 18 = x.setWidth 18 :=
  BitVec.setWidth_setWidth (by omega)

theorem encode_byte (b : Byte) : encode (.byte b) = b.setWidth 18 := by
  have h := encode_eq_or (i := .byte b) (by decide : mkCommand 0b00#2 0x0000#16 = 0x00000#18)
  exact (h.trans BitVec.zero_or).trans (setWidth_zext16 (by decide) b)

theorem encode_nib (n : Nibble) : encode (.nib n) = 0x10000#18 ||| n.setWidth 18 := by
  have h := encode_eq_or (i := .nib n) (by decide : mkCommand 0b01#2 0x0000#16 = 0x10000#18)
  exact h.trans (congrArg (0x10000#18 ||| ·) (setWidth_zext16 (by decide) n))

theorem encode_load (v : Word) : encode (.load v) = 0x20000#18 ||| v.setWidth 18 :=
  encode_eq_or (i := .load v) (by decide : mkCommand 0b10#2 0x0000#16 = 0x20000#18)

/-! ## The effect of a command -/

/-- On the ROM of R17, a command writes to a written `crc` the value its effect comes to there. -/
theorem exec_of_commandEffect_romTable {i : Instr} {s : State} {v w : Word} (hrom : s.romOk) (hc : s.crc = .holds v)
    (he : commandEffect romTable v i = w) : exec i s = .next { s with crc := .holds w } := by
  have hw : commandEffect s.rom v i = w := by rwa [show s.rom = romTable from hrom]
  rw [exec_of_holds i hc, hw]
  rfl

theorem execThen_of_next {i : Instr} {s t : State} (j : Instr) (h : exec i s = .next t) :
    execThen i j s = exec j t := by
  rw [execThen, h]

theorem execThen_of_fault {i : Instr} {s : State} {r : Fault} (j : Instr) (h : exec i s = .fault r) :
    execThen i j s = .fault r := by
  rw [execThen, h]

/-- NIB of the two nibbles of a byte, high first, has the outcome of the byte, in a fault too (R53). -/
theorem execThen_nib_nib (s : State) (b : Byte) :
    execThen (.nib (highNibble b)) (.nib (lowNibble b)) s = exec (.byte b) s := by
  cases hc : s.crc with
  | unwritten => rw [execThen_of_fault _ (exec_of_unwritten rfl hc), exec_of_unwritten rfl hc]
  | holds v =>
    rw [execThen_of_next _ (exec_of_holds _ hc), exec_of_holds _ (State.writeCrc_crc s _), exec_of_holds _ hc]
    rfl

theorem highNibble_byteOfNibbles (hi lo : Nibble) : highNibble (byteOfNibbles hi lo) = hi :=
  BitVec.extractLsb'_append_eq_left

theorem lowNibble_byteOfNibbles (hi lo : Nibble) : lowNibble (byteOfNibbles hi lo) = lo :=
  BitVec.extractLsb'_append_eq_right

/-- Two NIB commands have the outcome of BYTE with the first nibble on top (R53, R62). -/
theorem execThen_nib_nib_eq_byteOfNibbles (s : State) (hi lo : Nibble) :
    execThen (.nib hi) (.nib lo) s = exec (.byte (byteOfNibbles hi lo)) s := by
  rw [← execThen_nib_nib, highNibble_byteOfNibbles, lowNibble_byteOfNibbles]

/-! ## What a result depends on -/

theorem foldCrc_congr {f : Word → Word} {s t u : State} (hc : u.crc = s.crc) (h : foldCrc f s = .next t) :
    foldCrc f u = .next { u with crc := t.crc } := by
  obtain ⟨v, hv, rfl⟩ := foldCrc_next h
  exact foldCrc_of_holds (hc.trans hv)

/-- The result of a command is a function of the ROM, its operand and, where it reads it, the old `crc` (R55). -/
theorem exec_congr {i : Instr} {s t u : State} (hrom : u.rom = s.rom) (hc : readsCrc i = true → u.crc = s.crc)
    (h : exec i s = .next t) : exec i u = .next { u with crc := t.crc } := by
  cases i with
  | byte b =>
    have hfold := foldCrc_congr (hc rfl) h
    rwa [← hrom] at hfold
  | nib n =>
    have hfold := foldCrc_congr (hc rfl) h
    rwa [← hrom] at hfold
  | load v => cases h; rfl
  | init => cases h; rfl

/-- The result of an edge is a function of the ROM, the ports and the old `crc` (R60). -/
theorem onEdge_next_congr {p : Ports} {s t u : State} (hrom : u.rom = s.rom) (hc : u.crc = s.crc)
    (h : onEdge p s = .next t) : onEdge p u = .next { u with crc := t.crc } := by
  obtain ⟨rst, valid, op, data⟩ := p
  cases rst with
  | true => cases h; rfl
  | false =>
    cases valid with
    | true => exact exec_congr hrom (fun _ => hc) h
    | false => cases h; rw [onEdge_idle, idleEdge_eq, ← hc]

/-! ## A message after a seed -/

/-- After the edge of a command that writes `v` from every state (LOAD, INIT), inputs that feed a message leave
`Update(v, message)` in `crc` (R57). -/
theorem runSteps_seed_fedMessage {i : Instr} {es rest : List HostInput} {message : List Byte} {s : State} {v : Word}
    (hseed : ∀ u, exec i u = .next (u.writeCrc v)) (hi : s.inputs = commandEdge i :: (es ++ rest))
    (hm : fedMessage es = some message) :
    runSteps (1 + es.length) s = .next ⟨.holds (update s.rom v message), s.rom, rest⟩ := by
  have hstep := (step_cons hi).trans ((onInput_commandEdge i _).trans (hseed _))
  rw [Nat.add_comm, runSteps_of_next _ hstep]
  exact runSteps_of_fedMessage hm rfl rfl

/-! ## The obligations -/

/-- Settles O9: the masked index is the nibble itself, and the truncated shift drops `r[15:12]`. -/
theorem nibStepIsTruncatedTableStep : Obligations.NibStepIsTruncatedTableStep := by
  intro rom r n
  refine ⟨(trunc16_xor_shiftLeft _ r 4).symm, ?_, fun i => rfl⟩
  rw [nibStep, nibIndex_eq, shiftLeft_four_eq_append]

/-- Settles O10: NIB writes the nibble step of a written `crc`, and each corner case is a value of that step. -/
theorem nibFoldsOneNibble : Obligations.NibFoldsOneNibble := by
  refine ⟨encode_nib, fun _ => decodeCommand_of_op_nib, fun _ _ _ => rfl, fun _ _ n hc => exec_of_holds (.nib n) hc,
    fun _ n hc => exec_of_unwritten (i := .nib n) rfl hc, ?_, ?_, ?_, ?_⟩
  · intro s v hrom hc
    exact exec_of_commandEffect_romTable hrom hc ((nibStep_topNibble romTable v).trans BitVec.zero_xor)
  · intro s n hrom hc
    exact exec_of_commandEffect_romTable hrom hc (nibStep_zero romTable n)
  · intro s hrom hc
    exact exec_of_commandEffect_romTable hrom hc (by decide)
  · intro s hrom hc
    exact exec_of_commandEffect_romTable hrom hc (by decide)

/-- Settles O11: BYTE writes the byte step of a written `crc`, and the nibbles of a byte, high first, do the same. -/
theorem byteFoldsHighNibbleFirst : Obligations.ByteFoldsHighNibbleFirst := by
  have hswap : nibStep romTable (nibStep romTable 0x1D0F#16 0x1#4) 0x3#4 ≠ byteStep romTable 0x1D0F#16 0x31#8 := by
    decide
  refine ⟨encode_byte, fun _ => decodeCommand_of_op_byte, fun _ _ _ => rfl,
    fun _ _ b hc => exec_of_holds (.byte b) hc, fun _ b hc => exec_of_unwritten (i := .byte b) rfl hc, execThen_nib_nib,
    ⟨0x1D0F#16, 0x31#8, hswap⟩, ?_, ?_⟩
  · intro s hrom hc
    exact ⟨exec_of_commandEffect_romTable hrom hc (by decide), exec_of_commandEffect_romTable hrom hc (by decide)⟩
  · intro s hrom hc
    exact exec_of_commandEffect_romTable hrom hc (by decide)

/-- Settles O12: nibbles fed low first are those of the swapped byte, and the rule's example tells the two apart. -/
theorem nibbleOrderIsPartOfTheFunction : Obligations.NibbleOrderIsPartOfTheFunction := by
  refine ⟨fun s lo hi => execThen_nib_nib_eq_byteOfNibbles s lo hi, fun s hrom hc => ?_⟩
  have hswapped : exec (.byte 0x13#8) s = .next { s with crc := .holds 0xEECE#16 } :=
    exec_of_commandEffect_romTable hrom hc (by decide)
  exact ⟨exec_of_commandEffect_romTable hrom hc (by decide),
    (execThen_nib_nib_eq_byteOfNibbles s 0x1#4 0x3#4).trans hswapped, hswapped⟩

/-- Settles O13: a command that completes is a write of `crc`, and from a written `crc` every command completes. -/
theorem commandsWriteOnlyCrc : Obligations.CommandsWriteOnlyCrc := by
  refine ⟨fun i s t h => ?_, fun i s v hc => ⟨_, exec_of_holds i hc⟩, fun i s u t => exec_congr⟩
  obtain ⟨v, rfl⟩ := exec_next h
  exact ⟨rfl, rfl, rfl⟩

/-- Settles O25: what an edge writes, and when it faults, are functions of `crc`, the ROM and the ports. -/
theorem edgeDependsOnCrcAndPortsAlone : Obligations.EdgeDependsOnCrcAndPortsAlone := by
  intro s u p hc hrom
  refine ⟨fun t => onEdge_next_congr hrom hc, fun r h => ?_, fun r h => absurd h (onEdge_ne_refused p s r)⟩
  rw [onEdge_fault_iff] at h ⊢
  rwa [hc]

/-- Settles O35: LOAD writes `r` from every state, and the inputs after it fold the message into it. -/
theorem loadThenBytesComputesUpdate : Obligations.LoadThenBytesComputesUpdate :=
  ⟨update_nil, fun rom r b rest => ⟨update_cons rom r b rest, rfl⟩,
    fun _ r _ _ _ hi hm => ⟨_, runSteps_seed_fedMessage (exec_load r) hi hm, rfl, rfl, rfl⟩⟩

/-- Settles O36: a run that feeds no byte leaves `Update(crc, [])`, which is `crc`. -/
theorem emptyMessageChangesNothing : Obligations.EmptyMessageChangesNothing := by
  refine ⟨update_nil, fun s es rest hw hm hi => ?_⟩
  obtain ⟨v, hc⟩ := CrcReg.isWritten_eq_true_iff.mp hw
  rw [runSteps_of_fedMessage hm hc hi, update_nil, ← hc]

/-- Settles O37: `crc_out` after the first part is `Update(r, A)`, and the second part is folded from there. -/
theorem chunkBoundariesDoNotMatter : Obligations.ChunkBoundariesDoNotMatter := by
  refine ⟨fun rom r A B => (update_append rom r A B).symm, ?_⟩
  intro s t u r saved as bs rest more A B hc hi hA hrun hsaved hrom hu hB
  rw [runSteps_of_fedMessage hA hc hi] at hrun
  cases hrun
  cases hsaved
  refine ⟨_, runSteps_seed_fedMessage (exec_load _) hu hB, ?_⟩
  rw [crcOut_of_holds rfl, hrom, update_append]

/-- Settles O39: on the ROM of R17 a byte step is two nibble steps, each of them four bit steps. -/
theorem byteStepEqualsEightBitSteps : Obligations.ByteStepEqualsEightBitSteps :=
  ⟨fun _ => rfl, byteStep_romTable⟩

/-- Settles O7: INIT is a write of `crc` that reads nothing. -/
theorem initSeedsTheFixedValue : Obligations.InitSeedsTheFixedValue :=
  ⟨by decide, fun _ => decodeCommand_of_op_init, exec_init,
    fun s => (execThen_of_next .init (exec_init s)).trans (exec_init _)⟩

/-- Settles O8: LOAD is a write of `crc` that reads nothing. -/
theorem loadWritesItsOperand : Obligations.LoadWritesItsOperand :=
  ⟨encode_load, fun _ => decodeCommand_of_op_load, fun s v => exec_load v s, fun _ => rfl⟩

/-- Settles O19: an idle edge keeps the state, whether or not `crc` is written. -/
theorem idleEdgeChangesNothing : Obligations.IdleEdgeChangesNothing := by
  intro s op data rest hi
  rw [step_cons hi, onInput_edge, onEdge_idle]

end Sys2Proof.Machine
end

section
/-! PROOF. `crc_out`, the loss of power (R21, R79) and several instances (R76): which inputs can change the state at
all, and what a step at one position does to the platform. -/

namespace Sys2Proof.Machine

/-! ## What can change `crc_out` -/

theorem crcOut_eq_ok_iff {s : State} {v : Word} : crcOut s = .ok v ↔ s.crc = .holds v := by
  cases hc : s.crc with
  | unwritten => simp [crcOut_of_unwritten hc]
  | holds w => simp [crcOut_of_holds hc]

/-- A read of `crc_out` that completes has no side effect (R32). -/
theorem readOut_next {s t : State} (h : readOut s = .next t) : t = s := by
  cases hc : s.crc with
  | unwritten => rw [readOut_of_unwritten hc] at h; cases h
  | holds v => rw [readOut_of_holds hc] at h; cases h; rfl

/-- An input that completes changes nothing, unless it is an edge with a reset or a command, or a loss of power
(R32, R54, R79). -/
theorem onInput_next_cases {e : HostInput} {s t : State} (h : onInput e s = .next t) :
    t = s ∨ (∃ p, e = .edge p ∧ (p.rst = true ∨ p.cmdValid = true)) ∨ e = .powerCycle := by
  cases e with
  | edge p =>
    obtain ⟨rst, valid, op, data⟩ := p
    cases rst with
    | true => exact .inr (.inl ⟨_, rfl, .inl rfl⟩)
    | false =>
      cases valid with
      | true => exact .inr (.inl ⟨_, rfl, .inr rfl⟩)
      | false => cases h; exact .inl rfl
  | badEdge => cases h
  | readOut => exact .inl (readOut_next h)
  | powerCycle => exact .inr (.inr rfl)

/-! ## A step at one position of the platform -/

/-- Everything a completed step at position `k` does: it replaces the state there by what that state's own step gives.
Where the platform has no position `k`, `List.set` changes nothing, whatever `t` is. -/
theorem platformStep_next_iff {k : Nat} {ps qs : List State} :
    platformStep k ps = .next qs ↔ ∃ t, (∀ s, ps[k]? = some s → step s = .next t) ∧ qs = ps.set k t := by
  cases hk : ps[k]? with
  | none =>
    have hset (t : State) : ps.set k t = ps := List.set_eq_of_length_le (List.getElem?_eq_none_iff.mp hk)
    have : Nonempty State := ⟨.reset⟩
    simp [platformStep, hk, hset, eq_comm]
  | some s =>
    cases hs : step s with
    | next t => simp [platformStep, hk, hs, eq_comm]
    | fault r => simp [platformStep, hk, hs]
    | refused r => simp [platformStep, hk, hs]

/-! ## The obligations -/

/-- Settles O26: `crc_out` is a function of `crc` alone, and every other input that completes leaves the state as it
was. -/
theorem crcOutFollowsCrc : Obligations.CrcOutFollowsCrc := by
  refine ⟨fun s v => crcOut_eq_ok_iff, finalValue_eq, fun s t h hne => ?_⟩
  cases hi : s.inputs with
  | nil => rw [step_nil hi] at h; cases h; exact absurd rfl hne
  | cons e rest =>
    rw [step_cons hi] at h
    obtain rfl | ⟨p, rfl, hp⟩ | rfl := onInput_next_cases h
    · exact absurd rfl hne
    · exact ⟨rest, .inl ⟨p, rfl, hp⟩⟩
    · exact ⟨rest, .inr rfl⟩

/-- Settles O43: a step sets its own position of the platform, and settings of two positions commute. -/
theorem instancesAreIndependent : Obligations.InstancesAreIndependent := by
  constructor
  · intro k ps qs h
    obtain ⟨t, ht, rfl⟩ := platformStep_next_iff.mp h
    exact ⟨fun j hj => List.getElem?_set_ne hj.symm, fun s hs => ⟨t, ht s hs, by rw [List.getElem?_set_self', hs]; rfl⟩⟩
  · intro j k ps qs rs hjk hj hk
    obtain ⟨t, ht, rfl⟩ := platformStep_next_iff.mp hj
    obtain ⟨u, hu, rfl⟩ := platformStep_next_iff.mp hk
    rw [List.getElem?_set_ne hjk] at hu
    refine ⟨ps.set k u, platformStep_next_iff.mpr ⟨u, hu, rfl⟩, platformStep_next_iff.mpr ⟨t, ?_, List.set_comm t u hjk⟩⟩
    rwa [List.getElem?_set_ne hjk.symm]

/-- Settles O29: the step is the loss of power on the state without that input, and with no input there is no edge. -/
theorem powerLossLeavesCrcUnwritten : Obligations.PowerLossLeavesCrcUnwritten :=
  ⟨fun _ _ hi => (step_cons hi).trans (onInput_powerCycle _), fun _ => step_nil⟩

end Sys2Proof.Machine
end

section
/-! PROOF. Reset, the next-state function of an edge and the host's duties (R80 to R87): what a run of reset edges
leaves, what each edge answers, how long a result stays on `crc_out`, and when a run over all inputs completes. -/

namespace Sys2Proof.Machine

/-! ## Operands, steps and reset edges -/

theorem highNibble_byteOperand (data : Word) : highNibble (byteOperand data) = data.extractLsb' 4 4 :=
  BitVec.extractLsb'_extractLsb'_of_le (by decide)

theorem lowNibble_byteOperand (data : Word) : lowNibble (byteOperand data) = data.extractLsb' 0 4 :=
  BitVec.extractLsb'_extractLsb'_of_le (by decide)

/-- Reset comes before a command at the same edge (R71, R80). -/
theorem onEdge_of_rst {p : Ports} (h : p.rst = true) (s : State) : onEdge p s = .next (resetEdge s) := if_pos h

theorem runSteps_one (s : State) : runSteps 1 s = step s := by
  cases hs : step s with
  | next t => exact runSteps_of_next 0 hs
  | fault r => exact runSteps_of_fault 0 hs
  | refused r => exact runSteps_of_refused 0 hs

/-- While reset is held `crc` keeps the reset value, whatever commands the edges present (R81). -/
theorem runSteps_resetEdges_of_holds {ps : List Ports} {s : State} {rest : List HostInput}
    (hc : s.crc = .holds Config.crcResetValue) (hps : ∀ p ∈ ps, p.rst = true)
    (hi : s.inputs = ps.map .edge ++ rest) :
    runSteps ps.length s = .next { s with inputs := rest } := by
  induction ps generalizing s with
  | nil => cases hi; rfl
  | cons p ps ih =>
    obtain ⟨hp, hps⟩ := List.forall_mem_cons.mp hps
    have hstep := (step_cons hi).trans (onEdge_of_rst hp _)
    rw [List.length_cons, runSteps_of_next _ hstep, ih rfl hps rfl]
    exact congrArg (fun c => Host.Outcome.next (State.mk c s.rom rest)) hc.symm

/-- The first of any number of reset edges writes the reset value from every state, and the others keep it (R81). -/
theorem runSteps_resetEdges {ps : List Ports} {s : State} {rest : List HostInput}
    (hne : ps ≠ []) (hps : ∀ p ∈ ps, p.rst = true) (hi : s.inputs = ps.map .edge ++ rest) :
    runSteps ps.length s = .next ⟨.holds Config.crcResetValue, s.rom, rest⟩ := by
  cases ps with
  | nil => exact absurd rfl hne
  | cons p ps =>
    obtain ⟨hp, hps⟩ := List.forall_mem_cons.mp hps
    have hstep := (step_cons hi).trans (onEdge_of_rst hp _)
    rw [List.length_cons, runSteps_of_next _ hstep]
    exact runSteps_resetEdges_of_holds rfl hps rfl

/-! ## Parts of a message -/

/-- A list of inputs that feeds a message feeds one part of it before any cut, and the other part after it. -/
theorem fedMessage_append_eq_some {as bs : List HostInput} {message : List Byte}
    (h : fedMessage (as ++ bs) = some message) :
    ∃ A B, fedMessage as = some A ∧ fedMessage bs = some B ∧ message = A ++ B := by
  induction as generalizing message with
  | nil => exact ⟨[], message, rfl, h, rfl⟩
  | cons e as ih =>
    obtain ⟨fed, more, he, hmore, rfl⟩ := fedMessage_cons_eq_some h
    obtain ⟨A, B, hA, hB, rfl⟩ := ih hmore
    exact ⟨fed ++ A, B, by simp [fedMessage, he, hA], hB, (List.append_assoc ..).symm⟩

/-- The first inputs of a list that feeds no byte feed none. -/
theorem fedMessage_take_eq_nil {es : List HostInput} (h : fedMessage es = some []) (k : Nat) :
    fedMessage (es.take k) = some [] := by
  rw [← List.take_append_drop k es] at h
  obtain ⟨A, B, hA, -, hnil⟩ := fedMessage_append_eq_some h
  rw [hA, (List.append_eq_nil_iff.mp hnil.symm).left]

/-- After each of any idle edges and reads a written `crc` still holds its value (R32, R54). -/
theorem runSteps_of_fedMessage_nil {es rest : List HostInput} {s : State} {v : Word} {k : Nat}
    (hm : fedMessage es = some []) (hc : s.crc = .holds v) (hi : s.inputs = es ++ rest) (hk : k ≤ es.length) :
    runSteps k s = .next ⟨.holds v, s.rom, es.drop k ++ rest⟩ := by
  have hcut : s.inputs = es.take k ++ (es.drop k ++ rest) := by
    rw [← List.append_assoc, List.take_append_drop, hi]
  have hrun := runSteps_of_fedMessage (fedMessage_take_eq_nil hm k) hc hcut
  rwa [List.length_take_of_le hk, update_nil] at hrun

/-! ## When a run completes -/

/-- The duties along a list of inputs are kept exactly where the first input completes and the later ones keep them
from the `crc` it leaves (R83 to R85). -/
theorem hostKeepsDuty_cons_iff {e : HostInput} {s : State} :
    hostKeepsDuty s.crc.isWritten (e :: s.inputs) = true ↔
      ∃ t, onInput e s = .next t ∧ hostKeepsDuty t.crc.isWritten s.inputs = true := by
  refine ⟨onInput_of_hostKeepsDuty, ?_⟩
  rintro ⟨t, ht, hrest⟩
  cases e with
  | edge p =>
    obtain ⟨rst, valid, op, data⟩ := p
    cases rst with
    | true => cases ht; exact hrest
    | false =>
      cases valid with
      | false => cases ht; exact hrest
      | true =>
        rw [onInput_edge, onEdge_command] at ht
        obtain ⟨-, -, hfault⟩ | ⟨hread, v, hnext⟩ := exec_fault_or_next (decodeFields op data) s
        · rw [hfault] at ht; cases ht
        · rw [hnext] at ht
          cases ht
          refine hostKeepsDuty_command_iff.mpr ⟨fun hr => ?_, hrest⟩
          cases hc : s.crc with
          | unwritten => exact absurd hc (hread hr)
          | holds v => rfl
  | badEdge => cases ht
  | readOut =>
    cases hc : s.crc with
    | unwritten => rw [onInput_readOut, readOut_of_unwritten hc] at ht; cases ht
    | holds v =>
      obtain rfl := readOut_next ht
      rw [hc] at hrest
      exact hrest
  | powerCycle => cases ht; exact hrest

/-- A run completes exactly where its first step does and the run from there does. -/
theorem runSteps_succ_next_iff {k : Nat} {s u : State} :
    runSteps (k + 1) s = .next u ↔ ∃ t, step s = .next t ∧ runSteps k t = .next u := by
  cases hs : step s with
  | next t => simp [runSteps_of_next k hs]
  | fault r => simp [runSteps_of_fault k hs]
  | refused r => simp [runSteps_of_refused k hs]

/-- By induction on the inputs: the first one completes and the rest of the run does, from the `crc` that it left. -/
theorem runSteps_completes_iff {es : List HostInput} {s : State} (hi : s.inputs = es) :
    (∃ u, runSteps es.length s = .next u) ↔ hostKeepsDuty s.crc.isWritten es = true := by
  induction es generalizing s with
  | nil => exact ⟨fun _ => rfl, fun _ => ⟨s, rfl⟩⟩
  | cons e es ih =>
    have hrest {t : State} (ht : onInput e { s with inputs := es } = .next t) :
        (∃ u, runSteps es.length t = .next u) ↔ hostKeepsDuty t.crc.isWritten es = true :=
      ih (onInput_frame ht).right
    calc (∃ u, runSteps (es.length + 1) s = .next u)
        ↔ ∃ t, onInput e { s with inputs := es } = .next t ∧ ∃ u, runSteps es.length t = .next u := by
          simp only [runSteps_succ_next_iff, step_cons hi]
          exact ⟨fun ⟨u, t, ht, hu⟩ => ⟨t, ht, u, hu⟩, fun ⟨t, ht, u, hu⟩ => ⟨u, t, ht, hu⟩⟩
      _ ↔ ∃ t, onInput e { s with inputs := es } = .next t ∧ hostKeepsDuty t.crc.isWritten es = true :=
          exists_congr fun t => and_congr_right hrest
      _ ↔ hostKeepsDuty s.crc.isWritten (e :: es) = true :=
          (hostKeepsDuty_cons_iff (s := { s with inputs := es })).symm

/-! ## The obligations -/

/-- Settles O18: `op` selects one of four commands; each completes on a written `crc`, and on an unwritten one BYTE and
NIB alone fault. -/
theorem edgeIsTheNextStateFunction : Obligations.EdgeIsTheNextStateFunction := by
  refine ⟨?_, ?_, fun _ _ _ _ _ => crcOut_of_holds⟩
  · rintro s ⟨rst, valid, op, data⟩ v hc
    cases rst with
    | true => rfl
    | false =>
      cases valid with
      | false => exact congrArg Host.Outcome.next (State.writeCrc_self hc).symm
      | true =>
        rw [onEdge_command, exec_of_holds _ hc]
        obtain rfl | rfl | rfl | rfl := opField_cases op
        · rw [← highNibble_byteOperand, ← lowNibble_byteOperand]
          rfl
        · rfl
        · rfl
        · rfl
  · rintro s ⟨rst, valid, op, data⟩ hc
    cases rst with
    | true => rfl
    | false =>
      cases valid with
      | false => rfl
      | true =>
        rw [onEdge_command]
        obtain rfl | rfl | rfl | rfl := opField_cases op
        · exact foldCrc_of_unwritten hc
        · exact foldCrc_of_unwritten hc
        · rfl
        · rfl

/-- Settles O20: reset comes first at an edge, and it is a write of `crc`. -/
theorem resetEdgeWritesTheResetValue : Obligations.ResetEdgeWritesTheResetValue :=
  fun _ valid op data _ hi => ⟨(step_cons hi).trans (onEdge_rst valid op data _), crcOut_of_holds rfl⟩

/-- Settles O21: the reset edges leave the reset value, and one more step runs the next edge from there. -/
theorem resetHeldThenOrdinaryEdge : Obligations.ResetHeldThenOrdinaryEdge := by
  intro s ps rest hne hps hi
  have hreset := runSteps_resetEdges hne hps hi
  refine ⟨hreset, fun op data more => ⟨?_, ?_⟩⟩
  · rintro rfl
    rw [runSteps_add 1 hreset, runSteps_one, step_cons rfl, onInput_edge, onEdge_command]
    rfl
  · rintro rfl
    rw [runSteps_add 1 hreset, runSteps_one, step_cons rfl, onInput_edge, onEdge_idle]
    rfl

/-- Settles O22: the two states are written out, and a reset edge is a write of `crc`. -/
theorem powerUpAndResetTable : Obligations.PowerUpAndResetTable :=
  ⟨rfl, crcOut_of_unwritten rfl, rfl, rfl, crcOut_of_holds rfl, rfl,
    fun s => ⟨resetEdge_crc s, crcOut_of_holds (resetEdge_crc s), resetEdge_rom s⟩⟩

/-- Settles O28: the command's step writes its result, and the idle edges and reads after it keep that. -/
theorem resultAppearsAfterOneEdge : Obligations.ResultAppearsAfterOneEdge := by
  intro s u v w i idles rest hc hi hidle hexec hw
  rw [exec_of_holds i hc] at hexec
  cases hexec
  cases hw
  have hstep := step_commandEdge_of_holds hc hi
  refine ⟨crcOut_of_holds hc, ⟨_, hstep, crcOut_of_holds rfl⟩, fun k hk => ?_⟩
  rw [show Config.cmdLatency + k = k + 1 from Nat.add_comm 1 k, runSteps_of_next k hstep]
  exact ⟨_, runSteps_of_fedMessage_nil hidle rfl rfl hk, crcOut_of_holds rfl⟩

/-- Settles O32: both states hold the table of R17, reset leaves `crc` written and power-up unwritten. -/
theorem invariantHoldsAtReset : Obligations.InvariantHoldsAtReset :=
  ⟨⟨rfl, rfl⟩, fun _ hduty => ⟨rfl, hduty⟩, fun _ hduty => ⟨rfl, hduty⟩⟩

/-- Settles O33: the run over all inputs is the run over that list. -/
theorem runCompletesExactlyWhenDutyKept : Obligations.RunCompletesExactlyWhenDutyKept :=
  fun _ => runSteps_completes_iff rfl

end Sys2Proof.Machine
end

section
/-! PROOF. The residue of an appended checksum (95_test_vectors.md V-RES), the lines that do not assemble (R47), and
command words given as numbers: those the spec writes out, and the one a host presents at the next edge (R37). -/

namespace Sys2Proof.Machine

/-! ## The residue -/

/-- Without its high byte a register is its low byte (R29). -/
theorem xor_highByte_shiftLeft (r : Word) : r ^^^ (zext16 (highByte r) <<< 8) = zext16 (lowByte r) := by
  apply BitVec.eq_of_getLsbD_eq
  intro j hj
  by_cases h : j < 8
  · simp [zext16, hj, h]
  · simp [zext16, hj, h, show j - 8 < 8 by omega, show 8 + (j - 8) = j by omega]

/-- Eight bit steps shift a byte to the top. -/
theorem bitSteps_eight_byte (b : Byte) : bitSteps 8 (zext16 b) = zext16 b <<< 8 := by
  apply bitSteps_eq_shiftLeft
  intro j hj
  simp [zext16, BitVec.getLsbD_of_ge b j hj]

/-- Folding the register's own high byte cancels it and shifts the low byte up. -/
theorem bitSerialByte_highByte (r : Word) : bitSerialByte r (highByte r) = zext16 (lowByte r) <<< 8 := by
  rw [bitSerialByte, xor_highByte_shiftLeft, bitSteps_eight_byte]

/-- Folding the byte that is all the register holds, at its top, leaves zero. -/
theorem bitSerialByte_shiftLeft_self (b : Byte) : bitSerialByte (zext16 b <<< 8) b = 0x0000#16 := by
  rw [bitSerialByte, BitVec.xor_self]
  decide

/-- A register folded with its own two bytes, high byte first, is zero. -/
theorem update_romTable_serialise_highFirst (r : Word) :
    update romTable r (serialise .highFirst r) = 0x0000#16 := by
  rw [update_romTable, serialise, bitSerialRegister_cons, bitSerialRegister_cons, bitSerialRegister_nil,
    bitSerialByte_highByte, bitSerialByte_shiftLeft_self]

/-! ## Lines that do not assemble -/

theorem assembleLine_doesNotFit_iff {l : AsmLine} :
    assembleLine l = .error .doesNotFit ↔ ¬ l.wellFormed = true := by
  cases h : l.wellFormed with
  | false => simp [assembleLine_of_not_wellFormed h]
  | true => simp [assembleLine_of_wellFormed h]

/-! ## Command words as numbers -/

/-- The number `(op << 16) | data` decodes as its fields (R37). -/
theorem decodeWord_mkCommand_toNat (op : OpField) (data : Word) :
    decodeWord (mkCommand op data).toNat = .ok (decodeFields op data) := by
  rw [decodeWord_toNat, decodeCommand_mkCommand]

/-- A number decodes to a command exactly when it is a command word and that word does (R45). -/
theorem decodeWord_eq_ok_iff {n : Nat} {i : Instr} :
    decodeWord n = .ok i ↔ n < 2 ^ 18 ∧ decodeCommand (BitVec.ofNat 18 n) = i := by
  by_cases h : n < 2 ^ 18
  · rw [decodeWord_of_lt h, Except.ok.injEq, and_iff_right h]
  · rw [decodeWord_of_le (Nat.not_lt.mp h), iff_false_right fun hand => h hand.1]
    nofun

theorem onInput_inputOfNat {n : Nat} (h : n < 2 ^ 18) (s : State) :
    onInput (inputOfNat n) s = exec (decodeCommand (BitVec.ofNat 18 n)) s := by
  rw [inputOfNat, commandOfNat_of_lt h]
  rfl

/-! ## The obligations -/

/-- Settles O40: the message leaves `c` in the register, and the bytes of `c` take it to zero. -/
theorem appendedChecksumLeavesZero : Obligations.AppendedChecksumLeavesZero := by
  intro r message
  rw [update_append, update_romTable_serialise_highFirst]

/-- Settles O45: such an operand keeps the line from being well formed. -/
theorem pseudoInstructionsRejectWhatDoesNotFit : Obligations.PseudoInstructionsRejectWhatDoesNotFit := by
  simp only [Obligations.PseudoInstructionsRejectWhatDoesNotFit, assembleLine_doesNotFit_iff, wellFormed_bytes_iff,
    wellFormed_crc_iff, wellFormed_update_iff, wellFormed_str_iff, wellFormed_byten_iff]
  refine ⟨?_, fun r bs hr hfit => Nat.not_lt.mpr hr hfit.1, ?_, fun b => Nat.not_lt.mpr⟩
  · rintro bs ⟨b, hb, hbig⟩
    have hbytes : ¬ ∀ b ∈ bs, b < 0x100 := fun hfit => Nat.not_lt.mpr hbig (hfit b hb)
    exact ⟨hbytes, hbytes, fun r hfit => hbytes hfit.2⟩
  · rintro text ⟨c, hc, hbig⟩ hfit
    exact Nat.not_lt.mpr hbig (hfit c hc)

/-- Settles O5: each number is `(op << 16) | data` for the fields named here, and those decode to the command. -/
theorem specWordsDecode : Obligations.SpecWordsDecode :=
  ⟨decodeWord_mkCommand_toNat 0b00#2 0x0031#16, decodeWord_mkCommand_toNat 0b00#2 0xAB31#16,
    decodeWord_mkCommand_toNat 0b01#2 0x0003#16, decodeWord_mkCommand_toNat 0b01#2 0xFFF2#16,
    decodeWord_mkCommand_toNat 0b10#2 0x1D0F#16, decodeWord_mkCommand_toNat 0b10#2 0xD999#16,
    decodeWord_mkCommand_toNat 0b11#2 0x0000#16, decodeWord_mkCommand_toNat 0b11#2 0xFFFF#16⟩

/-- Settles O24: a command word fits in `nbits`, so the mask keeps it, and its edge is the first input. -/
theorem fetchedWordRunsNext : Obligations.FetchedWordRunsNext := by
  intro s nbits w i hbits hw
  obtain ⟨hlt, rfl⟩ := decodeWord_eq_ok_iff.mp hw
  have hmask : w % 2 ^ nbits = w := Nat.mod_eq_of_lt (hlt.trans_le (Nat.pow_le_pow_right (by decide) hbits))
  constructor
  · rw [decodeTableWord, hmask, commandOfNat_of_lt hlt]
    rfl
  · rw [State.withFetchWord, hmask, step_cons rfl]
    exact onInput_inputOfNat hlt s

end Sys2Proof.Machine
end
